-- ==== Sys2Proof/Word.lean ====
section
/-! DEFINITION. The machine's word types: the byte of the receive buffer and of a frame, the 32-bit request and
response word (spec/30_encoding.md R90, R95), and nothing else. -/

namespace Sys2Proof

/-- A byte, unsigned, 0..255 (R14). -/
abbrev Byte := BitVec 8

/-- A 32-bit request word (R90), response data word (R95) or counter value (R40). -/
abbrev Word := BitVec 32

end Sys2Proof
end

