-- ==== Sys2Proof/Config.lean ====
section
/-! DEFINITION. What is fixed before reset is released: the constants of spec/00_scope.md R10, the open parameters of
R11 as one record of plain data (`Configuration`), the example configuration of R13, and the one free value, the
drawn reset contents of the receive buffer (R45, R233). -/

namespace Sys2Proof

/-- `CAPACITY`, the receive buffer's size in bytes (R10). -/
def Config.capacity : Nat := 255

/-- `HDR`, the header size: command id and size field (R10). -/
def Config.hdr : Nat := 2

/-- `OVERHEAD`, the header and the checksum byte (R10). -/
def Config.overhead : Nat := 3

/-- `MIN_FRAME` (R10). -/
def Config.minFrame : Nat := 3

/-- `MAX_FRAME` (R10). -/
def Config.maxFrame : Nat := 255

/-- `RESP_BIT`, bit 7 of the command-id byte (R10). -/
def Config.respBit : Byte := 0x80

/-- The value buffer byte `index` draws at the reset that begins session number `session`: unspecified (R45, R233:
"A model must not assume any value for them"). A FREE VALUE: it has no body, so nothing can be proved of it
(notes/assumptions/3.md). -/
opaque Config.resetByte (session index : Nat) : Byte

/-- One entry of the descriptor table (R88): the command id, the expected frame size, the handler capability. -/
structure Descriptor where
  id : Byte
  size : Nat
  handler : Nat
deriving DecidableEq, Repr

/-- `FLAG_CLEAR_MODE`: when the first-response flag is cleared (R11, R157, R173). -/
inductive FlagClearMode where
  | afterDispatch
  | onSend
deriving DecidableEq, Repr

/-- `SYNC` as plain data: a formula over the buffered sequence. Every total function on sequences of at most 255
bytes is one (`SyncPred.complete` in Laws/Sync.lean), so no synchronizer that R11 admits is left out
(notes/assumptions/2.md). -/
inductive SyncPred where
  /-- The shipped design's stub: always synchronized (R123). -/
  | always
  /-- The buffer holds exactly `n` bytes. -/
  | lengthIs (n : Nat)
  /-- There is a byte at index `i` and it is `b`. -/
  | byteIs (i : Nat) (b : Byte)
  | neg (p : SyncPred)
  | both (p q : SyncPred)
deriving DecidableEq, Repr

/-- The configuration (R11, R43): fixed before reset is released, changed by no request. Defaults are R11's. -/
structure Configuration where
  /-- `TABLE`; its length is `N_CMD`. -/
  table : List Descriptor
  /-- `N_HANDLER`. -/
  nHandler : Nat := 256
  sync : SyncPred := .always
  flagClearMode : FlagClearMode := .afterDispatch
  keepTrailing : Bool := false
deriving DecidableEq, Repr

/-- `N_CMD` (R11). -/
def Configuration.nCmd (c : Configuration) : Nat := c.table.length

/-- The example configuration CFG-A of R13: PING and ECHO2. -/
def exampleConfiguration : Configuration :=
  { table := [⟨0x03, 3, 0⟩, ⟨0x10, 5, 1⟩], nHandler := 2 }

end Sys2Proof
end

