-- ==== Sys2Proof/Syntax.lean ====
section
/-! DEFINITION. The instructions: one constructor for each row of spec/opcode_table.json (R92, R93). -/

namespace Sys2Proof

/-- A decoded request (R93). Each operand is an unsigned 8-bit field used as it stands, so the type holds exactly
the requests that have an encoding; a value outside its legal range is still an instruction, answered `ERR_RANGE`. -/
inductive Instr where
  /-- `APPEND b` (R110) -/
  | append (b : Byte)
  /-- `PROCESS` (R120) -/
  | process
  /-- `BUF_RD i` (R175) -/
  | bufRd (i : Byte)
  /-- `BUF_WR i, d` (R176) -/
  | bufWr (i d : Byte)
  /-- `SEND p` (R170) -/
  | send (p : Byte)
  /-- `HDONE s` (R155) -/
  | hdone (s : Byte)
  /-- `CNT_RD k` (R190) -/
  | cntRd (k : Byte)
  /-- `DCNT_RD e` (R191) -/
  | dcntRd (e : Byte)
  /-- `STAT_RD` (R192) -/
  | statRd
deriving DecidableEq, Repr

end Sys2Proof
end

