-- ==== Sys2Proof/WellFormed.lean ====
section
/-! DEFINITION. The well-formedness checks of a configuration (spec/00_scope.md R12, and the ranges R11 gives `N_CMD`
and `N_HANDLER`). An instruction needs no check: every value of `Instr` has an encoding (R93). -/

namespace Sys2Proof

/-- The named checks: the four of R12 and the two ranges of R11. -/
inductive ConfigCheck where
  /-- `TABLE[e].id <= 0x7F` -/
  | id7bit
  /-- `TABLE[e].size >= 3` -/
  | sizeMin
  /-- `TABLE[e].size <= 255` -/
  | sizeMax
  /-- `TABLE[e].handler < N_HANDLER` -/
  | handlerRange
  /-- `N_CMD` in 0..256 -/
  | nCmdRange
  /-- `N_HANDLER` in 1..256 -/
  | nHandlerRange
deriving DecidableEq, Repr

/-- Whether a configuration passes one check (R12). -/
def Configuration.passes (c : Configuration) : ConfigCheck → Bool
  | .id7bit => c.table.all fun d => decide (d.id ≤ 0x7F)
  | .sizeMin => c.table.all fun d => decide (Config.minFrame ≤ d.size)
  | .sizeMax => c.table.all fun d => decide (d.size ≤ Config.maxFrame)
  | .handlerRange => c.table.all fun d => decide (d.handler < c.nHandler)
  | .nCmdRange => decide (c.nCmd ≤ 256)
  | .nHandlerRange => decide (1 ≤ c.nHandler ∧ c.nHandler ≤ 256)

/-- Every check, in the order they are tried. -/
def ConfigCheck.all : List ConfigCheck :=
  [.id7bit, .sizeMin, .sizeMax, .handlerRange, .nCmdRange, .nHandlerRange]

/-- The first check a configuration fails, if any. -/
def Configuration.failure (c : Configuration) : Option ConfigCheck :=
  ConfigCheck.all.find? fun k => !c.passes k

/-- A configuration is well formed when it fails no check (R12). -/
def Configuration.wf (c : Configuration) : Bool := ConfigCheck.all.all c.passes

/-- R12's recommended property `unique_id`. It is no check: a table that breaks it is still well formed (R151). -/
def Configuration.uniqueId (c : Configuration) : Bool := decide (c.table.map Descriptor.id).Nodup

end Sys2Proof
end

