-- ==== Sys2Proof/Machine/State.lean ====
section
/-! DEFINITION. The machine's state as plain data: the architectural state of spec/10_state.md R30, the hidden state of
R44 (held and outstanding requests), the configuration of R43, and the model's own record of the agents' inputs and of
what the FSV has put out. Also the reasons a step can stop, and the state after reset. -/

namespace Sys2Proof.Machine

/-- The sequencing state (R38). -/
inductive Phase where
  | idle
  | dispatch
deriving DecidableEq, Repr

/-- The four agents that issue requests (R8, R100). The TX sink and the reset input issue none. -/
inductive Agent where
  /-- the RX source -/
  | rx
  /-- the controller -/
  | ctl
  /-- the handler agent that the dispatch output names -/
  | handler
  /-- the diagnostics reader -/
  | diag
deriving DecidableEq, Repr

/-- Response status (R96). Codes 4..15 are never produced, so they have no constructor. -/
inductive Status where
  | ok
  | errDecode
  | errState
  | errRange
deriving DecidableEq, Repr

/-- A response given to an agent: `{status, data}` (R95). -/
structure Delivery where
  agent : Agent
  status : Status
  data : Word
deriving DecidableEq, Repr

/-- The eight process-wide counters, by name (R40). -/
inductive CounterId where
  | attempts
  | badId
  | badSize
  | badCs
  | hInvoked
  | hDone
  | notFull
  | nonemptyAfter
deriving DecidableEq, Repr

/-- A counter's value: `CNT_WIDTH` bits, whose only value is 32 (R11), wrapping (R40). -/
abbrev Counter := BitVec 32

/-- `cnt[0..7]` (R40), in the order of the index map. -/
structure Counters where
  attempts : Counter
  badId : Counter
  badSize : Counter
  badCs : Counter
  hInvoked : Counter
  hDone : Counter
  notFull : Counter
  nonemptyAfter : Counter
deriving DecidableEq, Repr

/-- The framing events (R201). -/
inductive FramingEvent where
  | insufficient
  | syncFail
  | badId
  | badSize
  | notFull
  | badCs
  | overflow
  | trailing
deriving DecidableEq, Repr

/-- An entry of the model's event trace: a framing event, or the mark of a dispatch entry. -/
inductive TraceEntry where
  | framing (e : FramingEvent)
  | dispatched (entry payloadLen : Nat)
deriving DecidableEq, Repr

/-- What the outside does next (R8, R9, R75, R230): an agent puts a request word on its port; the FSV takes up one
agent's pending request; the reset input is asserted or released. -/
inductive Input where
  | issue (a : Agent) (w : Word)
  | perform (a : Agent)
  | assertReset
  | releaseReset
deriving DecidableEq, Repr

/-- The request pending on each agent's port: issued, and neither performed nor answered (R9, R44 (d)). -/
structure Ports where
  rx : Option Word
  ctl : Option Word
  handler : Option Word
  diag : Option Word
deriving DecidableEq, Repr

/-- The receive buffer's written bytes: (index, byte) pairs, indices strictly rising and below 255. An index not listed
has not been written since reset; it reads as its draw (`State.byte` in Machine/Memory.lean). -/
abbrev Memory := List Host.Cell

/-- The whole machine. -/
structure State where
  /-- The configuration (R11, R43): not state of the FSV, and changed by no step. -/
  cfg : Configuration
  /-- `buf[0..254]` (R33). -/
  buf : Memory
  /-- `len` (R34). -/
  len : BitVec 8
  /-- `first`, the first-response flag (R37). -/
  first : Bool
  /-- `phase` (R38). -/
  phase : Phase
  /-- `cur_e` (R39). -/
  curE : BitVec 8
  /-- `cur_size` (R39). -/
  curSize : BitVec 8
  /-- `cnt[0..7]` (R40). -/
  cnt : Counters
  /-- `dcnt[0..N_CMD-1]` (R41). -/
  dcnt : List Counter
  /-- The requests pending on the ports (R44 (d)). -/
  ports : Ports
  /-- The agent whose PROCESS entered the dispatch and is not answered yet (R44 (c), R158). -/
  outstanding : Option Agent
  /-- Whether the reset input is asserted (R230). -/
  resetLine : Bool
  /-- The model's own: the number of the session, which selects the buffer's draw (R232, R233). -/
  session : Nat
  /-- The model's own: the agent whose request is being performed. -/
  turn : Agent
  /-- The model's own: what the outside does, the next thing first. -/
  inputs : List Input
  /-- The model's own: every response given, the oldest first. -/
  responses : List Delivery
  /-- The model's own: every frame handed to the TX sink, the oldest first (R74). -/
  tx : List (List Byte)
  /-- The model's own: the event trace, the oldest first (R201: labels, not stored state). -/
  trace : List TraceEntry
deriving DecidableEq, Repr

/-- Reasons the machine could stop with a fault. There is none: "Every error condition is recoverable by design, never
fatal" (R200); a framing event is absorbed (R201) and a request error is answered by status (R202). Safe. -/
inductive Fault where
deriving DecidableEq, Repr

/-- Reasons a step is given no meaning. -/
inductive Refusal where
  /-- An arm of `exec` without a meaning. No arm raises it: all nine instructions have theirs. Safe. -/
  | notModelled (mnemonic : String)
  /-- Raised by `step` and by `State.configure` on a configuration that fails the named check: "A model refuses a
  configuration that fails a named check. It does not give one a meaning" (R12, R234). Safe: the model stops. -/
  | illFormedConfiguration (check : ConfigCheck)
deriving DecidableEq, Repr

/-- All counters 0 (R45). -/
def Counters.zero : Counters := ⟨0, 0, 0, 0, 0, 0, 0, 0⟩

/-- No request pending (R45). -/
def Ports.empty : Ports := ⟨none, none, none, none⟩

/-- The state after reset under a given configuration (R45, R231). `buf` lists no byte: each holds its draw. The spec
gives `cur_e` and `cur_size` no value; the model names 0 (notes/assumptions/4.md). -/
def State.resetWith (c : Configuration) : State :=
  { cfg := c, buf := [], len := 0, first := true, phase := .idle, curE := 0, curSize := 0, cnt := Counters.zero,
    dcnt := List.replicate c.nCmd 0, ports := Ports.empty, outstanding := none, resetLine := false, session := 0,
    turn := .rx, inputs := [], responses := [], tx := [], trace := [] }

/-- The machine right after reset, under the example configuration of R13 (notes/assumptions/1.md). -/
def State.reset : State := State.resetWith exampleConfiguration

/-- Booting a configuration (R234): a well-formed one gives its state after reset, any other is refused (R12). -/
def State.configure (c : Configuration) : Host.Outcome State Fault Refusal :=
  match c.failure with
  | none => .next (State.resetWith c)
  | some k => .refused (.illFormedConfiguration k)

end Sys2Proof.Machine
end

