-- ==== Sys2Proof/Machine/Memory.lean ====
section
/-! DEFINITION. The receive buffer as memory (spec/10_state.md R33, R36, spec/20_memory.md R60): one byte at each index
0..254, kept as the canonical list of the bytes written since reset; and the byte loops the spec writes over it. -/

namespace Sys2Proof.Machine

/-- The byte written at index `i` since reset, if any. -/
def Memory.read : Memory → Nat → Option Byte
  | [], _ => none
  | (a, b) :: m, i => if i = a then some b else Memory.read m i

/-- The list with byte `b` at index `i`, indices kept strictly rising. -/
def Memory.insert : Memory → Nat → Byte → Memory
  | [], i, b => [(i, b)]
  | (a, c) :: m, i, b =>
    if i < a then (i, b) :: (a, c) :: m
    else if i = a then (i, b) :: m
    else (a, c) :: Memory.insert m i b

/-- `buf[i] <- b`. There is no byte beyond index 254 ("Index 255 addresses nothing", R60), so nothing is stored there;
no operation comes to such an index, since each checks its range first (R96). -/
def Memory.write (m : Memory) (i : Nat) (b : Byte) : Memory :=
  if i < Config.capacity then Memory.insert m i b else m

/-- The canonical form: indices strictly rising, all below 255. An unlisted index has no written byte, so no entry can
equal what an unlisted one holds. -/
def Memory.wf (m : Memory) : Bool :=
  decide ((m.map Prod.fst).Pairwise (· < ·)) && m.all fun c => decide (c.1 < Config.capacity)

/-- `buf[i]`: the last byte written there since reset, else the byte drawn at reset (R36, R233). -/
def State.byte (s : State) (i : Nat) : Byte := (s.buf.read i).getD (Config.resetByte s.session i)

/-- `buf[i] <- b` (R15). -/
def State.setByte (s : State) (i : Nat) (b : Byte) : State := { s with buf := s.buf.write i b }

/-- The bytes `buf[0..n-1]`, in index order. -/
def State.bytes (s : State) (n : Nat) : List Byte := (List.range n).map s.byte

/-- The buffered byte sequence `buf[0..len-1]` (R35). -/
def State.buffered (s : State) : List Byte := s.bytes s.len.toNat

/-- `for i in start .. start+n-1: buf[i] <- buf[i+k]`, in ascending order: the shift of DISCARD (R122) and of HDONE
with `KEEP_TRAILING` (R155). -/
def State.copyDown (k : Nat) : (n : Nat) → (start : Nat) → State → State
  | 0, _, s => s
  | n + 1, i, s => State.copyDown k n (i + 1) (s.setByte i (s.byte (i + k)))

/-- `buf[0] + ... + buf[n-1]`, an unbounded natural sum (R121). -/
def State.byteSum (s : State) : Nat → Nat
  | 0 => 0
  | n + 1 => s.byteSum n + (s.byte n).toNat

/-- `CHECKSUM(n)`: the two's-complement negation of the byte sum, in 8 bits (R121). -/
def State.checksum (s : State) (n : Nat) : Byte := ~~~BitVec.ofNat 8 (s.byteSum n) + 1

end Sys2Proof.Machine
end

