-- ==== Sys2Proof/Machine/Operands.lean ====
section
/-! DEFINITION. Operand forms, fields and packings: the legal operand ranges (spec/30_encoding.md R93), the frame
arithmetic (R80 to R82), the descriptor entry (R88), the status word (R98), the numeric codes (R96, R201), and the
synchronizer's value on a buffer (R123). -/

namespace Sys2Proof.Machine

/-- `BUF_RD` and `BUF_WR`: index 0..254 legal (R93). -/
def bufIndexLegal (i : Byte) : Bool := decide (i.toNat ≤ 254)

/-- `SEND`: payload length 0..252 legal (R93). -/
def sendLengthLegal (p : Byte) : Bool := decide (p.toNat ≤ 252)

/-- `CNT_RD`: the counter at index `k`, for 0..7 (R40, R93). -/
def counterAt (k : Byte) : Option CounterId :=
  match k.toNat with
  | 0 => some .attempts
  | 1 => some .badId
  | 2 => some .badSize
  | 3 => some .badCs
  | 4 => some .hInvoked
  | 5 => some .hDone
  | 6 => some .notFull
  | 7 => some .nonemptyAfter
  | _ => none

/-- `DCNT_RD`: index 0..N_CMD-1 legal (R93). -/
def descriptorIndexLegal (c : Configuration) (e : Byte) : Bool := decide (e.toNat < c.nCmd)

/-- `S = zext_9(F) + 2`: no wrap (R81). -/
def frameSize (f : Byte) : Nat := f.toNat + Config.hdr

/-- `P = S - 3` (R82). -/
def payloadLength (size : Nat) : Nat := size - Config.overhead

/-- The 24-bit word of a descriptor entry: handler 23:16, size 15:8, id 7:0 (R88). -/
def packDescriptor (d : Descriptor) : BitVec 24 := BitVec.ofNat 8 d.handler ++ BitVec.ofNat 8 d.size ++ d.id

/-- The descriptor entry a 24-bit word holds (R88). -/
def unpackDescriptor (w : BitVec 24) : Descriptor :=
  { id := w.extractLsb' 0 8, size := (w.extractLsb' 8 8).toNat, handler := (w.extractLsb' 16 8).toNat }

/-- `SYNC(bs)` (R123). -/
def syncHolds : SyncPred → List Byte → Bool
  | .always, _ => true
  | .lengthIs n, bs => decide (bs.length = n)
  | .byteIs i b, bs => decide (bs[i]? = some b)
  | .neg p, bs => !syncHolds p bs
  | .both p q, bs => syncHolds p bs && syncHolds q bs

/-- The 4-bit status code (R96). -/
def statusCode : Status → BitVec 4
  | .ok => 0
  | .errDecode => 1
  | .errState => 2
  | .errRange => 3

/-- The code of a framing event (R201). -/
def eventCode : FramingEvent → Nat
  | .insufficient => 0
  | .syncFail => 1
  | .badId => 2
  | .badSize => 3
  | .notFull => 4
  | .badCs => 5
  | .overflow => 6
  | .trailing => 7

/-- The data word of a completed PROCESS that dispatched a frame: `FRAME` (R97). -/
def dataFrame : Word := 1

/-- The data word of a PROCESS whose scan stopped for want of bytes: `NONE` (R97). -/
def dataNone : Word := 0

/-- The phase bit: 0 = IDLE, 1 = DISPATCH (R98). -/
def phaseBit : Phase → BitVec 1
  | .idle => 0
  | .dispatch => 1

/-- A latch as STAT_RD shows it: its value in DISPATCH, else 0 (R98). -/
def latchShown (ph : Phase) (v : BitVec 8) : BitVec 8 :=
  match ph with
  | .idle => 0
  | .dispatch => v

/-- The STAT_RD data word (R98): `cur_size`, `cur_e`, six zeros, `phase`, `first`, `len`, from the high end. -/
def statusWord (s : State) : Word :=
  latchShown s.phase s.curSize ++ latchShown s.phase s.curE ++ (0 : BitVec 6) ++ phaseBit s.phase ++
    BitVec.ofBool s.first ++ s.len

end Sys2Proof.Machine
end

