-- ==== Sys2Proof/Machine/Flags.lean ====
section
/-! DEFINITION. The FSV's flags are its counters and `first` (spec/40_accumulator.md): the counters' increments
(spec/10_state.md R40, R41), the reply-direction bit (spec/43_response.md R174) and the clearing of `first` (R157,
R173). -/

namespace Sys2Proof.Machine

/-- `cnt[k]` (R40). -/
def Counters.get (c : Counters) : CounterId → Counter
  | .attempts => c.attempts
  | .badId => c.badId
  | .badSize => c.badSize
  | .badCs => c.badCs
  | .hInvoked => c.hInvoked
  | .hDone => c.hDone
  | .notFull => c.notFull
  | .nonemptyAfter => c.nonemptyAfter

/-- `inc(cnt[k])`, wrapping (R15, R40). -/
def Counters.inc (c : Counters) : CounterId → Counters
  | .attempts => { c with attempts := c.attempts + 1 }
  | .badId => { c with badId := c.badId + 1 }
  | .badSize => { c with badSize := c.badSize + 1 }
  | .badCs => { c with badCs := c.badCs + 1 }
  | .hInvoked => { c with hInvoked := c.hInvoked + 1 }
  | .hDone => { c with hDone := c.hDone + 1 }
  | .notFull => { c with notFull := c.notFull + 1 }
  | .nonemptyAfter => { c with nonemptyAfter := c.nonemptyAfter + 1 }

/-- `inc(cnt[k])` on the state. -/
def State.count (s : State) (k : CounterId) : State := { s with cnt := s.cnt.inc k }

/-- `dcnt` after `inc(dcnt[e])`, wrapping (R41). -/
def incDcnt (d : List Counter) (e : Nat) : List Counter := d.modify e (· + 1)

/-- The command-id byte of a response with the reply-direction bit ORed in (R170, R174). -/
def markReply (b : Byte) : Byte := b ||| Config.respBit

/-- `first` after HDONE (R157). -/
def firstAfterDispatch (c : Configuration) (first : Bool) : Bool :=
  match c.flagClearMode with
  | .afterDispatch => false
  | .onSend => first

/-- `first` after SEND (R173). -/
def firstAfterSend (c : Configuration) (first : Bool) : Bool :=
  match c.flagClearMode with
  | .afterDispatch => first
  | .onSend => false

end Sys2Proof.Machine
end

