-- ==== Sys2Proof/Machine/Ops.lean ====
section
/-! DEFINITION. The operations the meanings share: answering, holding, the phase and range checks (spec/30_encoding.md
R95, R96), DISCARD, LOOKUP and the classification of the head (spec/41_validator.md, spec/42_dispatch.md), the FSV's one
transfer of control and its return (spec/60_exceptions.md R206, R207), the scan, and reset (R230). -/

namespace Sys2Proof.Machine

/-- The request pending on an agent's port. -/
def Ports.get (p : Ports) : Agent → Option Word
  | .rx => p.rx
  | .ctl => p.ctl
  | .handler => p.handler
  | .diag => p.diag

/-- The ports with one agent's request set or removed. -/
def Ports.set (p : Ports) (a : Agent) (w : Option Word) : Ports :=
  match a with
  | .rx => { p with rx := w }
  | .ctl => { p with ctl := w }
  | .handler => { p with handler := w }
  | .diag => { p with diag := w }

/-- `respond(status, data)` (R15, R95): complete the request being performed, giving its agent the response. -/
def State.respond (s : State) (st : Status) (d : Word) : State :=
  { s with ports := s.ports.set s.turn none, responses := s.responses ++ [⟨s.turn, st, d⟩] }

/-- `hold` (R15): "It stays pending, and no state changes." -/
def hold (s : State) : Host.Outcome State Fault Refusal := .next s

/-- The phase check of APPEND and PROCESS (R38, R96): held in DISPATCH. -/
def whenIdle (s : State) (k : Host.Outcome State Fault Refusal) : Host.Outcome State Fault Refusal :=
  match s.phase with
  | .idle => k
  | .dispatch => hold s

/-- The phase check of the handler operations (R96): `ERR_STATE` in IDLE. -/
def whenDispatch (s : State) (k : Host.Outcome State Fault Refusal) : Host.Outcome State Fault Refusal :=
  match s.phase with
  | .idle => .next (s.respond .errState 0)
  | .dispatch => k

/-- The range check, made after the phase check (R96): `ERR_RANGE` outside the legal range. -/
def whenInRange (legal : Bool) (s : State) (k : Host.Outcome State Fault Refusal) :
    Host.Outcome State Fault Refusal :=
  if legal then k else .next (s.respond .errRange 0)

/-- Write an event into the model's trace (R201). -/
def State.note (s : State) (e : FramingEvent) : State := { s with trace := s.trace ++ [.framing e] }

/-- `emit_tx(bytes)` (R15, R74). -/
def State.emitTx (s : State) (frame : List Byte) : State := { s with tx := s.tx ++ [frame] }

/-- `DISCARD(reason)` (R122): shift the buffered bytes down by one, from index 0 up; the vacated top byte keeps its
value; the reason goes into the trace only. -/
def State.discard (s : State) (reason : FramingEvent) : State :=
  let t := State.copyDown 1 (s.len.toNat - 1) 0 s
  { t with len := s.len - 1, trace := s.trace ++ [.framing reason] }

/-- `LOOKUP(b)` (R150): the lowest index whose id is exactly `b`. -/
def lookup (c : Configuration) (b : Byte) : Option Nat := c.table.findIdx? fun d => d.id == b

/-- `TABLE[e].size`. Every `e` that `lookup` gives is an index of the table. -/
def entrySize (c : Configuration) (e : Nat) : Nat := (c.table[e]?.map Descriptor.size).getD 0

/-- What one trip round the scan loop finds (R124, R204). -/
inductive Verdict where
  | insufficient
  | syncFail
  | badId
  | badSize
  | notFull
  | badCs
  /-- a valid frame for descriptor `e`, of `size` bytes -/
  | valid (e size : Nat)
deriving DecidableEq, Repr

/-- The checks of one trip round the loop, in their fixed order (R124, R134). -/
def State.verdict (s : State) : Verdict :=
  if s.len.toNat ≤ Config.hdr then .insufficient
  else if !syncHolds s.cfg.sync s.buffered then .syncFail
  else
    match lookup s.cfg (s.byte 0) with
    | none => .badId
    | some e =>
      if frameSize (s.byte 1) ≠ entrySize s.cfg e then .badSize
      else if s.len.toNat < frameSize (s.byte 1) then .notFull
      else if s.checksum (frameSize (s.byte 1) - 1) ≠ s.byte (frameSize (s.byte 1) - 1) then .badCs
      else .valid e (frameSize (s.byte 1))

/-- Dispatch entry, the FSV's transfer of control (R130, R206): counts, latches `cur_e` and `cur_size`, sets the phase,
raises the dispatch output, and leaves the PROCESS of the agent being served outstanding (R158). -/
def State.dispatchEntry (s : State) (e size : Nat) : State :=
  { s with
    cnt := s.cnt.inc .hInvoked
    dcnt := incDcnt s.dcnt e
    curE := BitVec.ofNat 8 e
    curSize := BitVec.ofNat 8 size
    phase := .dispatch
    ports := s.ports.set s.turn none
    outstanding := some s.turn
    trace := s.trace ++ [.dispatched e (payloadLength size)] }

/-- `buf` and `len` after HDONE (R156): the trailing bytes dropped, or moved to the head. -/
def State.consumeFrame (s : State) : State :=
  if s.cfg.keepTrailing then
    let t := State.copyDown s.curSize.toNat (s.len.toNat - s.curSize.toNat) 0 s
    { t with len := BitVec.ofNat 8 (s.len.toNat - s.curSize.toNat) }
  else { s with len := 0 }

/-- Step 8's count of trailing bytes (R156). -/
def State.countTrailing (s : State) : State :=
  if s.curSize.toNat < s.len.toNat then (s.count .nonemptyAfter).note .trailing else s

/-- The answer `OK, 1` to the outstanding PROCESS (R158). -/
def State.answerOutstanding (s : State) : State :=
  match s.outstanding with
  | none => s
  | some a => { s with outstanding := none, responses := s.responses ++ [⟨a, .ok, dataFrame⟩] }

/-- The return from a dispatch (R155, R207): steps 8 and 9, `phase <- IDLE`, the answer to HDONE and the answer to the
outstanding PROCESS, in one step. -/
def State.dispatchReturn (s : State) : State :=
  let t := (s.count .hDone).countTrailing.consumeFrame
  let t := { t with first := firstAfterDispatch s.cfg s.first, phase := .idle }
  (t.respond .ok 0).answerOutstanding

/-- Step 1's stop (R125): `NONE`. -/
def State.stopInsufficient (s : State) : State := (s.note .insufficient).respond .ok dataNone

/-- Step 5's stop (R128): counted, `NONE`. -/
def State.stopNotFull (s : State) : State := ((s.count .notFull).note .notFull).respond .ok dataNone

/-- The scan loop (R124), on a bound of trips. A bound of `len` is enough, since each trip that does not stop removes a
byte and the loop stops at `len <= 2` (R131), so a bound of 0 is met only with an empty buffer. -/
def State.scan : Nat → State → State
  | 0, s => s.stopInsufficient
  | n + 1, s =>
    match s.verdict with
    | .insufficient => s.stopInsufficient
    | .syncFail => State.scan n (s.discard .syncFail)
    | .badId => State.scan n ((s.count .badId).discard .badId)
    | .badSize => State.scan n ((s.count .badSize).discard .badSize)
    | .notFull => s.stopNotFull
    | .badCs => State.scan n ((s.count .badCs).discard .badCs)
    | .valid e size => s.dispatchEntry e size

/-- The dispatch output (R99). -/
structure DispatchOutput where
  entry : BitVec 8
  handler : BitVec 8
  cmdId : BitVec 8
  payloadLen : BitVec 8
deriving DecidableEq, Repr

/-- The record driven toward the handler agent (R99): `some` while its `valid` bit is 1, which is exactly in DISPATCH. -/
def State.dispatchOutput (s : State) : Option DispatchOutput :=
  match s.phase with
  | .idle => none
  | .dispatch =>
    let d := s.cfg.table.getD s.curE.toNat ⟨0, 0, 0⟩
    some ⟨s.curE, BitVec.ofNat 8 d.handler, d.id, s.curSize - 3⟩

/-- Every piece of the FSV's state at its reset value (R45, R230), held and outstanding requests dropped, the buffer
drawn anew; what has been given to the agents and the TX sink stays given. -/
def State.applyReset (s : State) (line : Bool) : State :=
  { State.resetWith s.cfg with
    resetLine := line, session := s.session + 1, turn := s.turn, inputs := s.inputs, responses := s.responses,
    tx := s.tx, trace := s.trace }

end Sys2Proof.Machine
end

