-- ==== Sys2Proof/Machine/Accumulator.lean ====
section
/-! DEFINITION. The byte accumulator: APPEND (spec/40_accumulator.md). -/

namespace Sys2Proof.Machine

/-- The overflow policy (R111): a full buffer is emptied, silently, before the byte is recorded. -/
def State.emptyIfFull (s : State) : State :=
  if s.len.toNat = Config.capacity then { s.note .overflow with len := 0 } else s

/-- `APPEND b` (R110). -/
def execAppend (b : Byte) (s : State) : Host.Outcome State Fault Refusal :=
  whenIdle s <|
    let t := s.emptyIfFull
    let t := { t.setByte t.len.toNat b with len := t.len + 1 }
    .next (t.respond .ok 0)

end Sys2Proof.Machine
end

