-- ==== Sys2Proof/Machine/Diagnostics.lean ====
section
/-! DEFINITION. The diagnostic reads: CNT_RD, DCNT_RD, STAT_RD (spec/44_diagnostics.md). They pass in both phases. -/

namespace Sys2Proof.Machine

/-- `CNT_RD k` (R190). -/
def execCntRd (k : Byte) (s : State) : Host.Outcome State Fault Refusal :=
  match counterAt k with
  | none => .next (s.respond .errRange 0)
  | some c => .next (s.respond .ok (s.cnt.get c))

/-- `DCNT_RD e` (R191). -/
def execDcntRd (e : Byte) (s : State) : Host.Outcome State Fault Refusal :=
  whenInRange (descriptorIndexLegal s.cfg e) s <| .next (s.respond .ok (s.dcnt.getD e.toNat 0))

/-- `STAT_RD` (R192). -/
def execStatRd (s : State) : Host.Outcome State Fault Refusal := .next (s.respond .ok (statusWord s))

end Sys2Proof.Machine
end

