-- ==== Sys2Proof/Machine/Handler.lean ====
section
/-! DEFINITION. The end of a dispatch: HDONE (spec/42_dispatch.md). -/

namespace Sys2Proof.Machine

/-- `HDONE st` (R155). The handler's status is not stored, counted or forwarded (R161). -/
def execHdone (_st : Byte) (s : State) : Host.Outcome State Fault Refusal :=
  whenDispatch s <| .next s.dispatchReturn

end Sys2Proof.Machine
end

