-- ==== Sys2Proof/Machine/Response.lean ====
section
/-! DEFINITION. The response builder and the handler's buffer access: SEND, BUF_RD, BUF_WR (spec/43_response.md). -/

namespace Sys2Proof.Machine

/-- The first two writes of SEND (R170): the size field (R172), and the reply bit exactly when `first = 0` (R174). -/
def State.writeHeader (s : State) (p : Nat) : State :=
  let t := s.setByte 1 (BitVec.ofNat 8 (p + 1))
  if s.first then t else t.setByte 0 (markReply (t.byte 0))

/-- The response frame of payload length `p`, built in the buffer (R170): the header, then the checksum over the bytes
so written. -/
def State.buildResponse (s : State) (p : Nat) : State :=
  (s.writeHeader p).setByte (p + 2) ((s.writeHeader p).checksum (p + 2))

/-- `SEND p` (R170). -/
def execSend (p : Byte) (s : State) : Host.Outcome State Fault Refusal :=
  whenDispatch s <| whenInRange (sendLengthLegal p) s <|
    let t := s.buildResponse p.toNat
    let t := t.emitTx (t.bytes (p.toNat + Config.overhead))
    let t := { t with first := firstAfterSend s.cfg s.first }
    .next (t.respond .ok 0)

/-- `BUF_RD idx` (R175). -/
def execBufRd (idx : Byte) (s : State) : Host.Outcome State Fault Refusal :=
  whenDispatch s <| whenInRange (bufIndexLegal idx) s <|
    .next (s.respond .ok ((s.byte idx.toNat).setWidth 32))

/-- `BUF_WR idx, d` (R176). -/
def execBufWr (idx d : Byte) (s : State) : Host.Outcome State Fault Refusal :=
  whenDispatch s <| whenInRange (bufIndexLegal idx) s <|
    .next ((s.setByte idx.toNat d).respond .ok 0)

end Sys2Proof.Machine
end

