-- ==== Sys2Proof/Machine/Validator.lean ====
section
/-! DEFINITION. The frame synchronizer and validator: PROCESS (spec/41_validator.md). -/

namespace Sys2Proof.Machine

/-- `PROCESS` (R120, R124): one attempt counted, then the scan to its end. -/
def execProcess (s : State) : Host.Outcome State Fault Refusal :=
  whenIdle s <| .next ((s.count .attempts).scan s.len.toNat)

end Sys2Proof.Machine
end

