-- ==== Sys2Proof/Machine/Dispatch.lean ====
section
/-! DEFINITION. The meaning of each instruction: one arm per constructor. -/

namespace Sys2Proof.Machine

def exec (i : Instr) (s : State) : Host.Outcome State Fault Refusal :=
  match i with
  | .append b => Sys2Proof.Machine.execAppend b s
  | .process => Sys2Proof.Machine.execProcess s
  | .bufRd idx => Sys2Proof.Machine.execBufRd idx s
  | .bufWr idx d => Sys2Proof.Machine.execBufWr idx d s
  | .send p => Sys2Proof.Machine.execSend p s
  | .hdone st => Sys2Proof.Machine.execHdone st s
  | .cntRd k => Sys2Proof.Machine.execCntRd k s
  | .dcntRd e => Sys2Proof.Machine.execDcntRd e s
  | .statRd => Sys2Proof.Machine.execStatRd s

end Sys2Proof.Machine
end

