-- ==== Sys2Proof/Decode.lean ====
section
/-! DEFINITION. Decoding a request word, from the match and mask of each row (spec/30_encoding.md R90 to R94), and the
encoder, from R93's encoding column. -/

namespace Sys2Proof

/-- Why a word is no request (R91, R94). The FSV answers `ERR_DECODE` for both. -/
inductive DecodeError where
  /-- op 0x0 or 0xA..0xF -/
  | reservedOp
  /-- a nonzero reserved bit 27:16, or a nonzero operand the operation does not have -/
  | reservedBits
deriving DecidableEq, Repr

/-- The field `op`, bits 31:28 (R90). -/
def opField (w : Word) : BitVec 4 := w.extractLsb' 28 4

/-- Operand A, bits 15:8 (R90). -/
def operandA (w : Word) : Byte := w.extractLsb' 8 8

/-- Operand B, bits 7:0 (R90). -/
def operandB (w : Word) : Byte := w.extractLsb' 0 8

/-- One row of the opcode table (R93). -/
structure OpcodeRow where
  mnemonic : String
  pattern : Word
  mask : Word
  build : Word → Instr

/-- R94's test `(w & mask) == match`. -/
def OpcodeRow.selects (r : OpcodeRow) (w : Word) : Bool := w &&& r.mask == r.pattern

/-- The opcode table (R92, R93), in its order. -/
def opcodeRows : List OpcodeRow :=
  [ ⟨"APPEND", 0x10000000, 0xFFFFFF00, fun w => .append (operandB w)⟩,
    ⟨"PROCESS", 0x20000000, 0xFFFFFFFF, fun _ => .process⟩,
    ⟨"BUF_RD", 0x30000000, 0xFFFFFF00, fun w => .bufRd (operandB w)⟩,
    ⟨"BUF_WR", 0x40000000, 0xFFFF0000, fun w => .bufWr (operandA w) (operandB w)⟩,
    ⟨"SEND", 0x50000000, 0xFFFFFF00, fun w => .send (operandB w)⟩,
    ⟨"HDONE", 0x60000000, 0xFFFFFF00, fun w => .hdone (operandB w)⟩,
    ⟨"CNT_RD", 0x70000000, 0xFFFFFF00, fun w => .cntRd (operandB w)⟩,
    ⟨"DCNT_RD", 0x80000000, 0xFFFFFF00, fun w => .dcntRd (operandB w)⟩,
    ⟨"STAT_RD", 0x90000000, 0xFFFFFFFF, fun _ => .statRd⟩ ]

/-- Whether R92 gives the operation code to an operation. -/
def opAssigned (op : BitVec 4) : Bool := decide (1 ≤ op.toNat ∧ op.toNat ≤ 9)

/-- Decoding (R94): the row whose match and mask the word meets, else the word is refused by name. -/
def decode (w : Word) : Except DecodeError Instr :=
  match opcodeRows.find? fun r => r.selects w with
  | some r => .ok (r.build w)
  | none => .error (if opAssigned (opField w) then .reservedBits else .reservedOp)

/-- A request word from its fields (R90): `op`, twelve zero bits, A, B. -/
def requestWord (op : BitVec 4) (a b : Byte) : Word := op ++ (0 : BitVec 12) ++ a ++ b

/-- The word of an instruction (R93). -/
def encode : Instr → Word
  | .append b => requestWord 1 0 b
  | .process => requestWord 2 0 0
  | .bufRd i => requestWord 3 0 i
  | .bufWr i d => requestWord 4 i d
  | .send p => requestWord 5 0 p
  | .hdone s => requestWord 6 0 s
  | .cntRd k => requestWord 7 0 k
  | .dcntRd e => requestWord 8 0 e
  | .statRd => requestWord 9 0 0

/-- The instruction the decoder reads from a request of `nbits` bits whose bits are `w`. A request is one 32-bit
word, given whole to the FSV (R90), so no byte order arises. -/
def decodeTableWord (nbits w : Nat) : Option Instr :=
  if nbits ≤ 32 then
    match decode (BitVec.ofNat 32 (w % 2 ^ nbits)) with
    | .ok i => some i
    | .error _ => none
  else none

end Sys2Proof
end

