-- ==== Sys2Proof/Machine/Fetch.lean ====
section
/-! DEFINITION. Where a request comes from: the agents' ports and the arbitration between them (spec/00_scope.md R8, R9,
spec/20_memory.md R69, R75, spec/70_reset_and_hazards.md R230). The FSV has no program counter and fetches nothing
(R32, R72); a step takes the next input, and the input that takes up a pending request yields its word. -/

namespace Sys2Proof.Machine

/-- The agent has a request that is not answered: one pending on its port, or its PROCESS outstanding (R9). -/
def State.busy (s : State) (a : Agent) : Bool := (s.ports.get a).isSome || decide (s.outstanding = some a)

/-- An agent puts a request on its port. It has at most one request outstanding and issues the next only after the
response to the last (R9), and a request issued while reset is asserted is dropped (R230, R235). That the input of an agent
that would break R9 does nothing is the model's choice, DEDUCED (notes/assumptions/6.md). -/
def State.issue (s : State) (a : Agent) (w : Word) : State :=
  if s.resetLine || s.busy a then s else { s with ports := s.ports.set a (some w) }

/-- Take the next input. The second part is the request word to perform, if the input takes one up. With no input, or
with nothing pending on the chosen port, or while reset is asserted, nothing is performed. -/
def State.fetch (s : State) : State × Option Word :=
  match s.inputs with
  | [] => (s, none)
  | .issue a w :: rest => (State.issue { s with inputs := rest } a w, none)
  | .perform a :: rest =>
    match s.resetLine, s.ports.get a with
    | false, some w => ({ s with inputs := rest, turn := a }, some w)
    | _, _ => ({ s with inputs := rest }, none)
  | .assertReset :: rest => (State.applyReset { s with inputs := rest } true, none)
  | .releaseReset :: rest =>
    if s.resetLine then (State.applyReset { s with inputs := rest } false, none)
    else ({ s with inputs := rest }, none)

/-- The answer to a word that matches no row, whatever the phase and the reason (R94). -/
def rejectWord (_e : DecodeError) (s : State) : Host.Outcome State Fault Refusal := .next (s.respond .errDecode 0)

/-- The agent R92 names for an operation code; the FSV itself does not look at it. R92 names none for a reserved code; that
such a word is placed for the diagnostics reader is a DESIGN CHOICE (notes/assumptions/26.md). -/
def roleOf (op : BitVec 4) : Agent :=
  match op.toNat with
  | 1 => .rx
  | 2 => .ctl
  | 3 | 4 | 5 | 6 => .handler
  | _ => .diag

/-- One line of a request script (R100): an agent, its request, and the response it expects. -/
structure ScriptLine where
  agent : Agent
  instr : Instr
  expect : Option (Status × Option Word) := none
deriving DecidableEq, Repr

/-- An agent's name in a script (R100). -/
def agentName : Agent → String
  | .rx => "rx"
  | .ctl => "ctl"
  | .handler => "h"
  | .diag => "diag"

/-- A status's name (R96). -/
def statusName : Status → String
  | .ok => "OK"
  | .errDecode => "ERR_DECODE"
  | .errState => "ERR_STATE"
  | .errRange => "ERR_RANGE"

/-- A request in a script: its mnemonic, then its operands in R93's order (R100). -/
def requestText : Instr → String
  | .append b => "APPEND " ++ toString b.toNat
  | .process => "PROCESS"
  | .bufRd i => "BUF_RD " ++ toString i.toNat
  | .bufWr i d => "BUF_WR " ++ toString i.toNat ++ ", " ++ toString d.toNat
  | .send p => "SEND " ++ toString p.toNat
  | .hdone s => "HDONE " ++ toString s.toNat
  | .cntRd k => "CNT_RD " ++ toString k.toNat
  | .dcntRd e => "DCNT_RD " ++ toString e.toNat
  | .statRd => "STAT_RD"

/-- The expected response in a script, if any (R100). -/
def expectText : Option (Status × Option Word) → String
  | none => ""
  | some (st, none) => " -> " ++ statusName st
  | some (st, some d) => " -> " ++ statusName st ++ ", " ++ toString d.toNat

/-- A line as R100 writes it, with numbers in decimal. -/
def ScriptLine.text (l : ScriptLine) : String := agentName l.agent ++ ": " ++ requestText l.instr ++ expectText l.expect

/-- Whether a response is the one a line expects: "it is a check, not part of the request" (R100). -/
def ScriptLine.metBy (l : ScriptLine) (r : Delivery) : Bool :=
  match l.expect with
  | none => true
  | some (st, none) => decide (r.agent = l.agent ∧ r.status = st)
  | some (st, some d) => decide (r = ⟨l.agent, st, d⟩)

/-- The inputs of a line: the agent issues the request, and the FSV takes it up. -/
def lineInputs (l : ScriptLine) : List Input := [.issue l.agent (encode l.instr), .perform l.agent]

/-- The inputs of a script, "performed line by line in its written order" (R100). -/
def scriptInputs (ls : List ScriptLine) : List Input := ls.flatMap lineInputs

/-- The bytes of a well-formed frame: id, size field, payload, checksum (R80, R101). For a payload above 252 bytes there is
no well-formed frame; that the function gives bytes all the same, the size field taken mod 256, is a DESIGN CHOICE
(notes/assumptions/27.md). -/
def frameBytes (id : Byte) (payload : List Byte) : List Byte :=
  let body := id :: BitVec.ofNat 8 (payload.length + 1) :: payload
  body ++ [BitVec.ofNat 8 (0x100 - (body.map BitVec.toNat).sum % 256)]

/-- `FRAME id, b1, ..., bP` (R101); for P above 252 see `frameBytes`. -/
def scriptFrame (id : Byte) (payload : List Byte) : List ScriptLine :=
  (frameBytes id payload).map fun b => { agent := .rx, instr := .append b }

/-- `FRAMEP id, b1, ..., bP` (R101): a PROCESS after every APPEND. -/
def scriptFrameP (id : Byte) (payload : List Byte) : List ScriptLine :=
  (frameBytes id payload).flatMap fun b => [{ agent := .rx, instr := .append b }, { agent := .ctl, instr := .process }]

/-- `RESPOND p, b1, ..., bp` (R102): the payload written at indices 2 on, then SEND. R102 has p <= 252; that a longer
payload gives lines all the same, their operands taken mod 256, is a DESIGN CHOICE (notes/assumptions/27.md). -/
def scriptRespond (payload : List Byte) : List ScriptLine :=
  (payload.zipIdx 2).map (fun c => { agent := .handler, instr := .bufWr (BitVec.ofNat 8 c.2) c.1 }) ++
    [{ agent := .handler, instr := .send (BitVec.ofNat 8 payload.length) }]

end Sys2Proof.Machine
end

