-- ==== Sys2Proof/Machine/Step.lean ====
section
/-! DEFINITION. One step of the machine: take the next input; if it takes up a pending request, decode and perform the
request, atomically (spec/20_memory.md R64, R69). -/

namespace Sys2Proof.Machine

/-- Perform a request word: decode it, then do what the instruction means, or answer the decode error. -/
def performWord (w : Word) (s : State) : Host.Outcome State Fault Refusal :=
  match decode w with
  | .ok i => exec i s
  | .error e => rejectWord e s

/-- One step. An ill-formed configuration is refused (R12). -/
def step (s : State) : Host.Outcome State Fault Refusal :=
  match s.cfg.failure with
  | some k => .refused (.illFormedConfiguration k)
  | none =>
    match s.fetch with
    | (t, none) => .next t
    | (t, some w) => performWord w t

/-- `s` with the request of `nbits` bits `w` pending on the port of the agent that R92 names for it (for a reserved code,
the one `roleOf` chooses: notes/assumptions/26.md), reset released, and the next input taking it up. -/
def State.withFetchWord (s : State) (nbits w : Nat) : State :=
  let word : Word := BitVec.ofNat 32 (w % 2 ^ nbits)
  let a := roleOf (opField word)
  { s with ports := s.ports.set a (some word), resetLine := false, inputs := .perform a :: s.inputs }

end Sys2Proof.Machine
end

