-- ==== Sys2Proof/Machine/Fairness.lean ====
section
/-! DEFINITION. Fairness, which is all the time the model has (spec/70_reset_and_hazards.md R249): endless runs, what the
current phase accepts, and that a request so accepted is eventually performed. -/

namespace Sys2Proof.Machine

/-- The word is an APPEND or a PROCESS, which DISPATCH holds (R38, R96). -/
def waitsForIdle (w : Word) : Bool :=
  match decode w with
  | .ok (.append _) => true
  | .ok .process => true
  | _ => false

/-- The FSV accepts the request word as it is now: reset is not asserted (R230), and the phase does not hold it (R38, R96).
A word that is answered with an error is accepted. -/
def State.accepts (s : State) (w : Word) : Bool :=
  !s.resetLine && !(decide (s.phase = .dispatch) && waitsForIdle w)

/-- The outside adds inputs after those it has given already. -/
def State.given (s : State) (more : List Input) : State := { s with inputs := s.inputs ++ more }

/-- An endless run: `ρ n` is the state after `n` steps, and before the step after it the outside adds the inputs `σ n`. -/
def isRun (σ : Nat → List Input) (ρ : Nat → State) : Prop := ∀ n, step ((ρ n).given (σ n)) = .next (ρ (n + 1))

/-- The input the next step takes, if there is one. -/
def State.nextInput (s : State) : Option Input := s.inputs.head?

/-- The request `w` of agent `a` is performed in the next step: taken up and accepted. -/
def State.performsNext (s : State) (a : Agent) (w : Word) : Prop :=
  s.nextInput = some (.perform a) ∧ s.ports.get a = some w ∧ s.accepts w = true

/-- The next step is a reset, which drops every pending request (R230). -/
def State.resetsNext (s : State) : Prop :=
  s.nextInput = some .assertReset ∨ (s.nextInput = some .releaseReset ∧ s.resetLine = true)

/-- Fairness (R249: "every request the current phase accepts is eventually performed"): a pending request that the FSV
accepts again and again is eventually performed, unless a reset drops it. A request that a stuck handler holds for ever is
owed nothing (R160); so read, DEDUCED, notes/assumptions/28.md. The other half of R249, that the TX sink eventually accepts
every frame, holds at once (`State.emitTx`). -/
def fair (σ : Nat → List Input) (ρ : Nat → State) : Prop :=
  ∀ (n : Nat) (a : Agent) (w : Word), (ρ n).ports.get a = some w →
    (∀ m, n ≤ m → ∃ k, m ≤ k ∧ (ρ k).accepts w = true) →
    ∃ m, n ≤ m ∧ (((ρ m).given (σ m)).performsNext a w ∨ ((ρ m).given (σ m)).resetsNext)

end Sys2Proof.Machine
end

