-- ==== Sys2Proof/Safety.lean ====
section
/-! DEFINITION. The terms in which claims speak of safe runs: the invariants of the reachable states, and runs of
several instructions and of several steps. -/

namespace Sys2Proof.Machine

/-- The sum of the call counters, modulo 2^32 (R193 (b)). -/
def dcntSum (d : List Counter) : Counter := d.foldr (· + ·) 0

/-- In DISPATCH the latches hold a descriptor's index and its frame size, and the frame is in the buffer (R39, R130). -/
def State.latchesFrame (s : State) : Prop :=
  s.phase = .dispatch →
    ∃ d, s.cfg.table[s.curE.toNat]? = some d ∧ d.size = s.curSize.toNat ∧ s.curSize.toNat ≤ s.len.toNat

/-- A PROCESS is outstanding exactly in DISPATCH (R158), and its agent has no other request (R9). -/
def State.oneOutstanding (s : State) : Prop :=
  (s.phase = .dispatch ↔ s.outstanding.isSome) ∧ ∀ a, s.outstanding = some a → s.ports.get a = none

/-- Every buffered byte has been written since reset (R233). -/
def State.bufferedWritten (s : State) : Prop := ∀ i, i < s.len.toNat → (s.buf.read i).isSome

/-- R193 (a) and (b), as equations modulo 2^32. -/
def State.countersAgree (s : State) : Prop :=
  s.cnt.hInvoked - s.cnt.hDone = (if s.phase = .dispatch then 1 else 0) ∧ dcntSum s.dcnt = s.cnt.hInvoked

/-- What holds of every reachable state. -/
structure State.Inv (s : State) : Prop where
  cfgWf : s.cfg.failure = none
  bufWf : s.buf.wf
  dcntSize : s.dcnt.length = s.cfg.nCmd
  latches : s.latchesFrame
  outstanding : s.oneOutstanding
  written : s.bufferedWritten
  counters : s.countersAgree

/-- Perform the instructions in order, each after the one before, all for the agent whose turn it is. -/
def execAll : List Instr → State → Host.Outcome State Fault Refusal
  | [], s => .next s
  | i :: is, s =>
    match exec i s with
    | .next t => execAll is t
    | .fault f => .fault f
    | .refused r => .refused r

/-- `n` steps, stopping at the first fault or refusal. -/
def steps : Nat → State → Host.Outcome State Fault Refusal
  | 0, s => .next s
  | n + 1, s =>
    match step s with
    | .next t => steps n t
    | .fault f => .fault f
    | .refused r => .refused r

/-- The discards' event labels (R122). -/
def FramingEvent.isDiscard : FramingEvent → Bool
  | .syncFail | .badId | .badSize | .badCs => true
  | .insufficient | .notFull | .overflow | .trailing => false

/-- No input touches the reset line. -/
def noReset (inputs : List Input) : Bool :=
  inputs.all fun i => decide (i ≠ .assertReset) && decide (i ≠ .releaseReset)

/-- The word is no HDONE. -/
def notHdone (w : Word) : Bool :=
  match decode w with
  | .ok (.hdone _) => false
  | _ => true

/-- No HDONE is pending on a port or will be issued. -/
def State.neverReturns (s : State) : Prop :=
  (∀ a w, s.ports.get a = some w → notHdone w) ∧ ∀ a w, Input.issue a w ∈ s.inputs → notHdone w

end Sys2Proof.Machine
end

