-- ==== Sys2Proof/Certificates/Slice0/Obligations.lean ====
section
/-! DEFINITION. The statements for the provers, each a proposition about the machine. A next state is given as an update
of the state before, so that every field the update does not name is unchanged; `buf` is spoken of through the reading of
one byte, `State.byte`. -/

section
open Sys2Proof Sys2Proof.Machine Host

/-! ### Encoding -/

/-- Decoding the word of an instruction gives the instruction back, for every operand (R93, R94). -/
def Obligations.DecodeInvertsEncode : Prop := ∀ i : Instr, decode (encode i) = .ok i

/-- A word that decodes is the word of the instruction it decodes to: each word has one meaning (R93, R94). -/
def Obligations.EncodeInvertsDecode : Prop := ∀ (w : Word) (i : Instr), decode w = .ok i → encode i = w

/-- R94: at most one row is selected; the selected row decides; a word that selects none is answered `ERR_DECODE` with
data 0, in either phase, with no other change. -/
def Obligations.DecodeSelectsTheOneRow : Prop :=
  ∀ w : Word,
    (∀ r ∈ opcodeRows, ∀ r' ∈ opcodeRows, r.selects w = true → r'.selects w = true → r.mnemonic = r'.mnemonic) ∧
    (∀ r ∈ opcodeRows, r.selects w = true → decode w = .ok (r.build w)) ∧
    ((∀ r ∈ opcodeRows, r.selects w = false) → ∀ s : State,
      performWord w s =
        .next { s with
          ports := s.ports.set s.turn none
          responses := s.responses ++ [⟨s.turn, .errDecode, 0⟩] })

/-- R91, and the reserved operation codes of R92: such a word matches no row and is answered `ERR_DECODE`. -/
def Obligations.ReservedEncodingsAnswerErrDecode : Prop :=
  ∀ (w : Word) (s : State),
    ((opField w).toNat = 0 ∨ 10 ≤ (opField w).toNat ∨ w.extractLsb' 16 12 ≠ 0 ∨
      ((opField w).toNat ≠ 4 ∧ operandA w ≠ 0) ∨
      (((opField w).toNat = 2 ∨ (opField w).toNat = 9) ∧ operandB w ≠ 0)) →
    (∀ r ∈ opcodeRows, r.selects w = false) ∧
    performWord w s =
      .next { s with
        ports := s.ports.set s.turn none
        responses := s.responses ++ [⟨s.turn, .errDecode, 0⟩] }

/-- Words written out from R93's encoding column decode to the requests they stand for. -/
def Obligations.WrittenWordsDecode : Prop :=
  decode 0x100000FC = .ok (.append 0xFC) ∧ decode 0x20000000 = .ok .process ∧
  decode 0x300000C8 = .ok (.bufRd 200) ∧ decode 0x4000FE99 = .ok (.bufWr 254 0x99) ∧
  decode 0x500000FC = .ok (.send 252) ∧ decode 0x60000007 = .ok (.hdone 7) ∧
  decode 0x70000005 = .ok (.cntRd 5) ∧ decode 0x80000001 = .ok (.dcntRd 1) ∧ decode 0x90000000 = .ok .statRd

/-! ### One step -/

/-- When the next input takes up a pending request that decodes to `i`, the step is `exec i`, with the input consumed
and the request's agent the one to be answered. -/
def Obligations.StepPerformsThePendingRequest : Prop :=
  ∀ (s : State) (a : Agent) (w : Word) (i : Instr) (rest : List Input),
    s.cfg.failure = none → s.resetLine = false → s.inputs = .perform a :: rest → s.ports.get a = some w →
    decode w = .ok i → step s = exec i { s with inputs := rest, turn := a }

/-- A step that performs no request: an agent with no unanswered request puts one on its port (R9), and an issue while
reset is asserted is dropped (R230, R235). The other clauses are the model's choice: that a step with no input changes
nothing and that taking up an empty port only consumes the input (DESIGN CHOICE, notes/assumptions/5.md); that an issue by
an agent with an unanswered request, which R9 says does not happen, is dropped (DEDUCED, notes/assumptions/6.md). -/
def Obligations.StepWithoutRequest : Prop :=
  ∀ s : State, s.cfg.failure = none →
    (s.inputs = [] → step s = .next s) ∧
    (∀ a w rest, s.inputs = .issue a w :: rest → s.resetLine = false → s.ports.get a = none →
      s.outstanding ≠ some a → step s = .next { s with inputs := rest, ports := s.ports.set a (some w) }) ∧
    (∀ a w rest, s.inputs = .issue a w :: rest →
      (s.resetLine = true ∨ s.ports.get a ≠ none ∨ s.outstanding = some a) →
      step s = .next { s with inputs := rest }) ∧
    (∀ a rest, s.inputs = .perform a :: rest → s.ports.get a = none → step s = .next { s with inputs := rest })

/-- R230, R45: while reset is asserted no request is performed; a reset drops every held and outstanding request with no
response, whatever the phase, and takes no frame back from the TX sink; and when reset is released every piece of state
the spec gives a value has that value. -/
def Obligations.ResetGivesEveryPieceItsValue : Prop :=
  ∀ (s : State) (rest : List Input), s.cfg.failure = none →
    (∀ a, s.resetLine = true → s.inputs = .perform a :: rest → step s = .next { s with inputs := rest }) ∧
    (s.inputs = .assertReset :: rest ∨ (s.inputs = .releaseReset :: rest ∧ s.resetLine = true) →
      ∃ t, step s = .next t ∧ (∀ a, t.ports.get a = none) ∧ t.outstanding = none ∧ t.cfg = s.cfg ∧ t.inputs = rest ∧
        t.tx = s.tx ∧ t.responses = s.responses ∧ (t.resetLine = true ↔ s.inputs = .assertReset :: rest) ∧
        (s.inputs = .releaseReset :: rest →
          t.len = 0 ∧ t.first = true ∧ t.phase = .idle ∧ t.cnt = ⟨0, 0, 0, 0, 0, 0, 0, 0⟩ ∧
          t.dcnt = List.replicate s.cfg.table.length 0))

/-- R12, R234: a configuration is accepted exactly when every entry passes the four named checks (`N_CMD` and
`N_HANDLER` being in their ranges), and otherwise refused under the name of a check that it fails; duplicates of an id are
no reason to refuse, and lookup takes the lowest. -/
def Obligations.IllFormedConfigurationIsRefused : Prop :=
  ∀ c : Configuration, c.table.length ≤ 256 → 1 ≤ c.nHandler → c.nHandler ≤ 256 →
    ((∀ d ∈ c.table, d.id ≤ 0x7F ∧ 3 ≤ d.size ∧ d.size ≤ 255 ∧ d.handler < c.nHandler) →
      State.configure c = .next (State.resetWith c)) ∧
    ((∃ d ∈ c.table, ¬(d.id ≤ 0x7F ∧ 3 ≤ d.size ∧ d.size ≤ 255 ∧ d.handler < c.nHandler)) →
      ∃ k, c.passes k = false ∧ State.configure c = .refused (.illFormedConfiguration k) ∧
        ∀ s : State, s.cfg = c → step s = .refused (.illFormedConfiguration k)) ∧
    ∀ (e e' : Nat) (d d' : Descriptor), c.table[e]? = some d → c.table[e']? = some d' → d.id = d'.id →
      lookup c d.id ≠ none ∧ ∀ f, lookup c d.id = some f → f ≤ e ∧ f ≤ e'

/-- R231, R192: directly after reset the FSV is in IDLE with an empty buffer and `first` set, takes APPEND and PROCESS
at once, and its status word is 0x00000100. -/
def Obligations.AfterResetTheFsvIsReady : Prop :=
  ∀ (c : Configuration) (s : State), State.configure c = .next s →
    s.phase = .idle ∧ s.len = 0 ∧ s.first = true ∧
    (∃ t, exec .statRd s = .next t ∧ t.responses = [⟨s.turn, .ok, 0x00000100⟩]) ∧
    (∃ t, exec .process s = .next t ∧ t.responses = [⟨s.turn, .ok, 0⟩]) ∧
    ∀ b, ∃ t, exec (.append b) s = .next t ∧ t.responses = [⟨s.turn, .ok, 0⟩] ∧ t.len = 1 ∧ t.byte 0 = b

/-! ### APPEND -/

/-- R110: APPEND in IDLE records the byte at the tail, or at index 0 of an emptied buffer when `len = 255`, and answers
`OK`; every other byte, stale ones too, is as before. -/
def Obligations.AppendRecordsOneByte : Prop :=
  ∀ (b : Byte) (s : State), s.phase = .idle →
    ∃ t, exec (.append b) s = .next t ∧
      t = { s with
        buf := t.buf
        len := if s.len.toNat = 255 then 1 else s.len + 1
        ports := s.ports.set s.turn none
        responses := s.responses ++ [⟨s.turn, .ok, 0⟩]
        trace := if s.len.toNat = 255 then s.trace ++ [.framing .overflow] else s.trace } ∧
      ∀ i, t.byte i = if i = (if s.len.toNat = 255 then 0 else s.len.toNat) then b else s.byte i

/-- R113, R120: APPEND and PROCESS in DISPATCH are held: no state changes, so the request stays pending on its port. -/
def Obligations.AppendAndProcessAreHeldInDispatch : Prop :=
  ∀ (b : Byte) (s : State), s.phase = .dispatch → exec (.append b) s = .next s ∧ exec .process s = .next s

/-- R111, R112: 256 appends to an empty buffer leave the last byte alone in it; each is answered `OK`, no counter counts
the loss, and nothing is put out. -/
def Obligations.OverflowLeavesOnlyTheLastByte : Prop :=
  ∀ (s : State) (bs : List Byte) (b : Byte), s.phase = .idle → s.len = 0 → bs.length = 255 →
    ∃ t, execAll ((bs ++ [b]).map Instr.append) s = .next t ∧ t.len = 1 ∧ t.byte 0 = b ∧
      t.cnt = s.cnt ∧ t.dcnt = s.dcnt ∧ t.tx = s.tx ∧ t.phase = .idle ∧ t.first = s.first ∧
      t.responses = s.responses ++ List.replicate (bs.length + 1) ⟨s.turn, .ok, 0⟩

/-! ### PROCESS -/

/-- R125: with `len <= 2` the scan stops at once: `NONE`, no byte discarded, no counter but `cnt[0]` changed. -/
def Obligations.ShortBufferStopsTheScan : Prop :=
  ∀ s : State, s.phase = .idle → s.len.toNat ≤ 2 →
    exec .process s =
      .next { s with
        cnt := { s.cnt with attempts := s.cnt.attempts + 1 }
        ports := s.ports.set s.turn none
        responses := s.responses ++ [⟨s.turn, .ok, 0⟩]
        trace := s.trace ++ [.framing .insufficient] }

/-- R122: DISCARD removes exactly the head byte; the vacated top byte and every stale byte keep their values; nothing else
changes but the trace. -/
def Obligations.DiscardRemovesTheHeadByte : Prop :=
  ∀ (s : State) (r : FramingEvent), 1 ≤ s.len.toNat →
    s.discard r = { s with buf := (s.discard r).buf, len := s.len - 1, trace := s.trace ++ [.framing r] } ∧
    (s.discard r).len.toNat = s.len.toNat - 1 ∧
    ∀ i, (s.discard r).byte i = if i < s.len.toNat - 1 then s.byte (i + 1) else s.byte i

/-- R123, R126, R127, R129: a PROCESS counts one attempt and scans; a head that fails a check is counted under that check
(a synchronizer failure under none), loses one byte, and the scan goes round again on what is left. -/
def Obligations.FailedHeadIsCountedDiscardedAndRetried : Prop :=
  ∀ s : State,
    (s.phase = .idle → exec .process s = .next ((s.count .attempts).scan s.len.toNat)) ∧
    (2 < s.len.toNat →
      (syncHolds s.cfg.sync s.buffered = false →
        s.scan s.len.toNat = (s.discard .syncFail).scan (s.len.toNat - 1)) ∧
      (syncHolds s.cfg.sync s.buffered = true →
        (lookup s.cfg (s.byte 0) = none →
          s.scan s.len.toNat =
            (State.discard { s with cnt := { s.cnt with badId := s.cnt.badId + 1 } } .badId).scan (s.len.toNat - 1)) ∧
        ∀ e d, lookup s.cfg (s.byte 0) = some e → s.cfg.table[e]? = some d →
          ((s.byte 1).toNat + 2 ≠ d.size →
            s.scan s.len.toNat =
              (State.discard { s with cnt := { s.cnt with badSize := s.cnt.badSize + 1 } } .badSize).scan
                (s.len.toNat - 1)) ∧
          ((s.byte 1).toNat + 2 = d.size → d.size ≤ s.len.toNat →
            s.checksum (d.size - 1) ≠ s.byte (d.size - 1) →
            s.scan s.len.toNat =
              (State.discard { s with cnt := { s.cnt with badCs := s.cnt.badCs + 1 } } .badCs).scan
                (s.len.toNat - 1))))

/-- R128: an incomplete frame at the head stops the scan: counted in `cnt[6]`, answered `NONE`, no byte discarded. -/
def Obligations.IncompleteFrameWaits : Prop :=
  ∀ (s : State) (e : Nat) (d : Descriptor), s.phase = .idle → 2 < s.len.toNat →
    syncHolds s.cfg.sync s.buffered = true → lookup s.cfg (s.byte 0) = some e → s.cfg.table[e]? = some d →
    (s.byte 1).toNat + 2 = d.size → s.len.toNat < d.size →
    exec .process s =
      .next { s with
        cnt := { s.cnt with attempts := s.cnt.attempts + 1, notFull := s.cnt.notFull + 1 }
        ports := s.ports.set s.turn none
        responses := s.responses ++ [⟨s.turn, .ok, 0⟩]
        trace := s.trace ++ [.framing .notFull] }

/-- R130: a valid frame at the head is dispatched: counted, latched, the phase set, the dispatch output driven; the
buffer, `len` and `first` unchanged, and the PROCESS left outstanding with no answer. -/
def Obligations.ValidFrameIsDispatched : Prop :=
  ∀ (s : State) (e : Nat) (d : Descriptor), s.cfg.failure = none → s.phase = .idle →
    syncHolds s.cfg.sync s.buffered = true → lookup s.cfg (s.byte 0) = some e → s.cfg.table[e]? = some d →
    (s.byte 1).toNat + 2 = d.size → d.size ≤ s.len.toNat → s.checksum (d.size - 1) = s.byte (d.size - 1) →
    ∃ t, exec .process s = .next t ∧
      t = { s with
        cnt := { s.cnt with attempts := s.cnt.attempts + 1, hInvoked := s.cnt.hInvoked + 1 }
        dcnt := s.dcnt.modify e (· + 1)
        curE := t.curE
        curSize := t.curSize
        phase := .dispatch
        ports := s.ports.set s.turn none
        outstanding := some s.turn
        trace := s.trace ++ [.dispatched e (d.size - 3)] } ∧
      t.curE.toNat = e ∧ t.curSize.toNat = d.size ∧ d.id = s.byte 0 ∧
      t.dispatchOutput = some ⟨BitVec.ofNat 8 e, BitVec.ofNat 8 d.handler, d.id, BitVec.ofNat 8 (d.size - 3)⟩

/-- R131, R132: from every state in IDLE a PROCESS is performed: it discards at most `len - 2` bytes from the head, each
counted under its reason, and then ends in exactly one of three ways, answered `NONE` at step 1 or step 5, or in a
dispatch. The bytes left move down in order, each place they vacated holds the old tail byte, and every other byte, stale
ones too, is as before (R36, R46, R122). -/
def Obligations.ProcessEndsInOneOfThreeWays : Prop :=
  ∀ s : State, s.phase = .idle →
    ∃ (t : State) (ds : List FramingEvent), exec .process s = .next t ∧
      t = { s with
        buf := t.buf
        len := t.len
        phase := t.phase
        curE := t.curE
        curSize := t.curSize
        cnt := t.cnt
        dcnt := t.dcnt
        ports := s.ports.set s.turn none
        outstanding := t.outstanding
        responses := t.responses
        trace := t.trace } ∧
      ds.length ≤ s.len.toNat - 2 ∧ (∀ d ∈ ds, FramingEvent.isDiscard d = true) ∧
      t.len.toNat = s.len.toNat - ds.length ∧
      (∀ i, t.byte i =
        if i < t.len.toNat then s.byte (i + ds.length)
        else if i < s.len.toNat then s.byte (s.len.toNat - 1)
        else s.byte i) ∧
      t.cnt = { s.cnt with
        attempts := s.cnt.attempts + 1
        badId := s.cnt.badId + BitVec.ofNat 32 (ds.count .badId)
        badSize := s.cnt.badSize + BitVec.ofNat 32 (ds.count .badSize)
        badCs := s.cnt.badCs + BitVec.ofNat 32 (ds.count .badCs)
        notFull := t.cnt.notFull
        hInvoked := t.cnt.hInvoked } ∧
      ((t.trace = s.trace ++ ds.map .framing ++ [.framing .insufficient] ∧ t.len.toNat ≤ 2 ∧ t.phase = .idle ∧
          t.responses = s.responses ++ [⟨s.turn, .ok, 0⟩] ∧ t.cnt.notFull = s.cnt.notFull ∧
          t.cnt.hInvoked = s.cnt.hInvoked ∧ t.dcnt = s.dcnt ∧ t.outstanding = s.outstanding ∧
          t.curE = s.curE ∧ t.curSize = s.curSize) ∨
        (t.trace = s.trace ++ ds.map .framing ++ [.framing .notFull] ∧ 2 < t.len.toNat ∧
          (∃ e, lookup s.cfg (t.byte 0) = some e ∧ (t.byte 1).toNat + 2 = entrySize s.cfg e ∧
            t.len.toNat < entrySize s.cfg e) ∧ t.phase = .idle ∧
          t.responses = s.responses ++ [⟨s.turn, .ok, 0⟩] ∧ t.cnt.notFull = s.cnt.notFull + 1 ∧
          t.cnt.hInvoked = s.cnt.hInvoked ∧ t.dcnt = s.dcnt ∧ t.outstanding = s.outstanding ∧
          t.curE = s.curE ∧ t.curSize = s.curSize) ∨
        (∃ e, t.trace = s.trace ++ ds.map .framing ++ [.dispatched e (entrySize s.cfg e - 3)] ∧ 2 < t.len.toNat ∧
          lookup s.cfg (t.byte 0) = some e ∧ (t.byte 1).toNat + 2 = entrySize s.cfg e ∧
          entrySize s.cfg e ≤ t.len.toNat ∧
          t.checksum (entrySize s.cfg e - 1) = t.byte (entrySize s.cfg e - 1) ∧ t.phase = .dispatch ∧
          t.responses = s.responses ∧ t.cnt.notFull = s.cnt.notFull ∧ t.cnt.hInvoked = s.cnt.hInvoked + 1 ∧
          t.dcnt = s.dcnt.modify e (· + 1) ∧ t.outstanding = some s.turn ∧
          t.curE = BitVec.ofNat 8 e ∧ t.curSize = BitVec.ofNat 8 (entrySize s.cfg e)))

/-- R133: flip one bit of any one byte of a valid frame, and the frame is rejected at that head, for the first reason
that applies; the rejection discards exactly one byte, counts that reason and no other (a synchronizer failure under none),
and the scan goes round again. -/
def Obligations.SingleBitCorruptionIsRejected : Prop :=
  ∀ (s t : State) (e size j k : Nat), s.verdict = .valid e size → j < size → k < 8 →
    t = s.setByte j (s.byte j ^^^ (1#8 <<< k)) →
    (t.verdict =
      if syncHolds s.cfg.sync t.buffered = false then .syncFail
      else
        match lookup s.cfg (t.byte 0) with
        | none => .badId
        | some e' => if (t.byte 1).toNat + 2 = entrySize s.cfg e' then .badCs else .badSize) ∧
    ∃ (r : FramingEvent) (c : Counters),
      ((t.verdict = .syncFail ∧ r = .syncFail ∧ c = t.cnt) ∨
        (t.verdict = .badId ∧ r = .badId ∧ c = { t.cnt with badId := t.cnt.badId + 1 }) ∨
        (t.verdict = .badSize ∧ r = .badSize ∧ c = { t.cnt with badSize := t.cnt.badSize + 1 }) ∨
        (t.verdict = .badCs ∧ r = .badCs ∧ c = { t.cnt with badCs := t.cnt.badCs + 1 })) ∧
      t.scan t.len.toNat = (State.discard { t with cnt := c } r).scan (t.len.toNat - 1)

/-- R233, last part: the FSV's checks never read a byte outside `buf[0..len-1]`. Two states in IDLE that agree but for
such bytes and the draw give the same PROCESS: the same answers, counters, trace and phase, and buffered bytes that
agree. -/
def Obligations.ProcessIgnoresStaleBytes : Prop :=
  ∀ s s' : State, s.phase = .idle → s' = { s with buf := s'.buf, session := s'.session } →
    (∀ i, i < s.len.toNat → s'.byte i = s.byte i) →
    ∃ t t', exec .process s = .next t ∧ exec .process s' = .next t' ∧
      t' = { t with buf := t'.buf, session := t'.session } ∧ t.session = s.session ∧ t'.session = s'.session ∧
      ∀ i, i < t.len.toNat → t'.byte i = t.byte i

/-- R121: CHECKSUM is the 8-bit two's-complement negation of the byte sum, and a frame's last byte is its checksum exactly
when the 8-bit sum of all its bytes is 0. -/
def Obligations.ChecksumNegatesTheByteSum : Prop :=
  ∀ (s : State) (n : Nat),
    (s.checksum n).toNat = (256 - ((List.range n).map fun i => (s.byte i).toNat).sum % 256) % 256 ∧
    (s.checksum n = s.byte n ↔ ((List.range (n + 1)).map fun i => (s.byte i).toNat).sum % 256 = 0)

/-! ### LOOKUP -/

/-- R150, R151, R152: LOOKUP answers the lowest index whose id equals the byte in all 8 bits, else none; so no byte with
bit 7 set matches an entry of a well-formed table. -/
def Obligations.LookupIsTheFirstExactMatch : Prop :=
  ∀ (c : Configuration) (b : Byte),
    (∀ e, lookup c b = some e ↔
      ∃ d, c.table[e]? = some d ∧ d.id = b ∧ ∀ e' d', e' < e → c.table[e']? = some d' → d'.id ≠ b) ∧
    (lookup c b = none ↔ ∀ d ∈ c.table, d.id ≠ b) ∧
    (c.failure = none → b.msb = true → lookup c b = none)

/-! ### The handler's requests -/

/-- R155 to R158, R161: HDONE in DISPATCH, whatever its status operand: steps 8 and 9, the return to IDLE, the answer to
HDONE and the answer `OK, 1` to the outstanding PROCESS. -/
def Obligations.HdoneCompletesTheDispatch : Prop :=
  ∀ (st : Byte) (s : State), s.phase = .dispatch →
    ∃ t, exec (.hdone st) s = .next t ∧
      t = { s with
        buf := t.buf
        len := if s.cfg.keepTrailing = true then BitVec.ofNat 8 (s.len.toNat - s.curSize.toNat) else 0
        first := if s.cfg.flagClearMode = .afterDispatch then false else s.first
        phase := .idle
        cnt := { s.cnt with
          hDone := s.cnt.hDone + 1
          nonemptyAfter := if s.curSize.toNat < s.len.toNat then s.cnt.nonemptyAfter + 1 else s.cnt.nonemptyAfter }
        ports := s.ports.set s.turn none
        outstanding := none
        responses := s.responses ++ ⟨s.turn, .ok, 0⟩ :: s.outstanding.toList.map fun a => ⟨a, .ok, 1⟩
        trace := if s.curSize.toNat < s.len.toNat then s.trace ++ [.framing .trailing] else s.trace } ∧
      ∀ i, t.byte i =
        if s.cfg.keepTrailing = true ∧ i < s.len.toNat - s.curSize.toNat then s.byte (i + s.curSize.toNat)
        else s.byte i

/-- R96: a handler operation in IDLE is answered `ERR_STATE`, before any range check, and changes nothing else. -/
def Obligations.HandlerOperationsInIdleAnswerErrState : Prop :=
  ∀ (i : Instr) (s : State), s.phase = .idle →
    (∃ x, i = .bufRd x) ∨ (∃ x d, i = .bufWr x d) ∨ (∃ p, i = .send p) ∨ (∃ x, i = .hdone x) →
    exec i s =
      .next { s with
        ports := s.ports.set s.turn none
        responses := s.responses ++ [⟨s.turn, .errState, 0⟩] }

/-- R66: an index outside its space is answered `ERR_RANGE` and changes no state. -/
def Obligations.IndexOutsideItsSpaceAnswersErrRange : Prop :=
  ∀ (i : Instr) (s : State),
    (s.phase = .dispatch ∧ (i = .bufRd 255 ∨ (∃ d, i = .bufWr 255 d) ∨ ∃ p, i = .send p ∧ 252 < p.toNat)) ∨
      (∃ k, i = .cntRd k ∧ 7 < k.toNat) ∨ (∃ e, i = .dcntRd e ∧ s.cfg.table.length ≤ e.toNat) →
    exec i s =
      .next { s with
        ports := s.ports.set s.turn none
        responses := s.responses ++ [⟨s.turn, .errRange, 0⟩] }

/-- R170, R172 to R174: SEND in DISPATCH with a legal length: the size field, the reply bit exactly when `first = 0`, the
checksum over the bytes so written, the frame handed to the TX sink in index order, `first` cleared in ON_SEND mode only;
every other byte, `len` and every counter as before. -/
def Obligations.SendBuildsAndTransmits : Prop :=
  ∀ (p : Byte) (s : State), s.phase = .dispatch → p.toNat ≤ 252 →
    ∃ t, exec (.send p) s = .next t ∧
      t = { s with
        buf := t.buf
        first := if s.cfg.flagClearMode = .onSend then false else s.first
        ports := s.ports.set s.turn none
        responses := s.responses ++ [⟨s.turn, .ok, 0⟩]
        tx := s.tx ++ [(List.range (p.toNat + 3)).map t.byte] } ∧
      t.byte 0 = (if s.first = true then s.byte 0 else s.byte 0 ||| 0x80) ∧
      (t.byte 1).toNat = p.toNat + 1 ∧
      (t.byte (p.toNat + 2)).toNat =
        (256 - ((List.range (p.toNat + 2)).map fun i => (t.byte i).toNat).sum % 256) % 256 ∧
      ∀ i, i ≠ 0 → i ≠ 1 → i ≠ p.toNat + 2 → t.byte i = s.byte i

/-- R80, R172: what SEND transmits is a well-formed frame: its command-id byte with the reply bit as due, then exactly the
`p` bytes at indices 2..p+1 as payload. -/
def Obligations.SentFrameIsWellFormed : Prop :=
  ∀ (p : Byte) (s : State), s.phase = .dispatch → p.toNat ≤ 252 →
    ∃ t, exec (.send p) s = .next t ∧
      t.tx = s.tx ++
        [frameBytes (if s.first = true then s.byte 0 else s.byte 0 ||| 0x80)
          ((List.range p.toNat).map fun i => s.byte (i + 2))]

/-- R80, R101, R124: a well-formed frame at the head, of the size its id is registered with, passes the validator and is
dispatched to that id's first entry. -/
def Obligations.WellFormedFrameIsAccepted : Prop :=
  ∀ (s : State) (id : Byte) (payload : List Byte) (e : Nat), s.cfg.failure = none → s.phase = .idle →
    syncHolds s.cfg.sync s.buffered = true → lookup s.cfg id = some e →
    entrySize s.cfg e = payload.length + 3 → frameBytes id payload <+: s.buffered →
    ∃ t, exec .process s = .next t ∧ t.phase = .dispatch ∧ t.curE.toNat = e ∧
      t.curSize.toNat = payload.length + 3 ∧ t.len = s.len ∧ (∀ i, t.byte i = s.byte i) ∧
      t.dispatchOutput.map DispatchOutput.payloadLen = some (BitVec.ofNat 8 payload.length)

/-- R101's FRAMEP, with the default synchronizer: fed byte by byte with a PROCESS after each byte, a well-formed frame is
dispatched at its last byte and at no byte before. -/
def Obligations.FedFrameIsDispatchedAtItsLastByte : Prop :=
  ∀ (s : State) (id : Byte) (payload : List Byte) (e : Nat), s.cfg.failure = none → s.phase = .idle → s.len = 0 →
    s.cfg.sync = .always → lookup s.cfg id = some e → entrySize s.cfg e = payload.length + 3 →
    (∀ bs rest, rest ≠ [] → bs ++ rest = frameBytes id payload →
      ∃ t, execAll (bs.flatMap fun b => [.append b, .process]) s = .next t ∧ t.phase = .idle ∧ t.buffered = bs ∧
        t.dcnt = s.dcnt) ∧
    ∃ t, execAll ((frameBytes id payload).flatMap fun b => [.append b, .process]) s = .next t ∧
      t.phase = .dispatch ∧ t.buffered = frameBytes id payload ∧ t.curE.toNat = e ∧
      t.curSize.toNat = payload.length + 3 ∧ t.dcnt = s.dcnt.modify e (· + 1)

/-- R175: BUF_RD in DISPATCH answers the byte at the index, stale or not, and changes nothing else. -/
def Obligations.BufRdAnswersTheByte : Prop :=
  ∀ (i : Byte) (s : State), s.phase = .dispatch → i.toNat ≤ 254 →
    exec (.bufRd i) s =
      .next { s with
        ports := s.ports.set s.turn none
        responses := s.responses ++ [⟨s.turn, .ok, BitVec.ofNat 32 (s.byte i.toNat).toNat⟩] }

/-- R176: BUF_WR in DISPATCH writes the byte at the index and no other, whatever `len` is, and does not change `len`. -/
def Obligations.BufWrStoresTheByte : Prop :=
  ∀ (i d : Byte) (s : State), s.phase = .dispatch → i.toNat ≤ 254 →
    ∃ t, exec (.bufWr i d) s = .next t ∧
      t = { s with
        buf := t.buf
        ports := s.ports.set s.turn none
        responses := s.responses ++ [⟨s.turn, .ok, 0⟩] } ∧
      ∀ a, t.byte a = if a = i.toNat then d else s.byte a

/-! ### The diagnostic reads -/

/-- R190, R40: CNT_RD answers the counter the index map names, in either phase, and changes nothing else. -/
def Obligations.CntRdAnswersTheIndexedCounter : Prop :=
  ∀ (k : Byte) (v : Word) (s : State),
    [s.cnt.attempts, s.cnt.badId, s.cnt.badSize, s.cnt.badCs, s.cnt.hInvoked, s.cnt.hDone, s.cnt.notFull,
      s.cnt.nonemptyAfter][k.toNat]? = some v →
    exec (.cntRd k) s =
      .next { s with
        ports := s.ports.set s.turn none
        responses := s.responses ++ [⟨s.turn, .ok, v⟩] }

/-- R191: DCNT_RD answers the descriptor's call counter, in either phase, and changes nothing else. -/
def Obligations.DcntRdAnswersTheCallCounter : Prop :=
  ∀ (e : Byte) (v : Word) (s : State), e.toNat < s.cfg.table.length → s.dcnt[e.toNat]? = some v →
    exec (.dcntRd e) s =
      .next { s with
        ports := s.ports.set s.turn none
        responses := s.responses ++ [⟨s.turn, .ok, v⟩] }

/-- R192, R98: STAT_RD answers the status word, in either phase, and changes nothing else. -/
def Obligations.StatRdAnswersTheStatusWord : Prop :=
  ∀ s : State, ∃ v : Word,
    exec .statRd s =
      .next { s with
        ports := s.ports.set s.turn none
        responses := s.responses ++ [⟨s.turn, .ok, v⟩] } ∧
    v.extractLsb' 0 8 = s.len ∧ v.getLsbD 8 = s.first ∧ v.getLsbD 9 = decide (s.phase = .dispatch) ∧
    v.extractLsb' 10 6 = 0 ∧ v.extractLsb' 16 8 = (if s.phase = .dispatch then s.curE else 0) ∧
    v.extractLsb' 24 8 = (if s.phase = .dispatch then s.curSize else 0)

/-! ### The whole machine -/

/-- Every configuration that boots starts in a state that meets the invariant. -/
def Obligations.ResetMeetsTheInvariant : Prop :=
  ∀ (c : Configuration) (s : State), State.configure c = .next s → s.Inv

/-- Every step keeps the invariant: a canonical buffer, the latches of R39, one outstanding PROCESS exactly in DISPATCH
(R9, R158), every buffered byte written since reset (R233), and R193's laws (a) and (b). -/
def Obligations.EveryStepKeepsTheInvariant : Prop := ∀ s t : State, s.Inv → step s = .next t → t.Inv

/-- R43: no step changes the configuration. -/
def Obligations.EveryStepKeepsTheConfiguration : Prop := ∀ s t : State, step s = .next t → t.cfg = s.cfg

/-- R37, R157, R173: no request sets `first`; only an HDONE in AFTER_DISPATCH mode or a SEND in ON_SEND mode clears it. -/
def Obligations.FirstFlagIsOnlyCleared : Prop :=
  ∀ (i : Instr) (s t : State), exec i s = .next t → t.first ≠ s.first →
    s.first = true ∧ t.first = false ∧ s.phase = .dispatch ∧
    (((∃ st, i = .hdone st) ∧ s.cfg.flagClearMode = .afterDispatch) ∨
      ((∃ p, i = .send p) ∧ s.cfg.flagClearMode = .onSend))

/-- R38, R159: only PROCESS enters DISPATCH, from IDLE, and only HDONE leaves it; so dispatches do not nest. -/
def Obligations.OnlyProcessEntersAndHdoneLeavesDispatch : Prop :=
  ∀ (i : Instr) (s t : State), exec i s = .next t → t.phase ≠ s.phase →
    (s.phase = .idle ∧ t.phase = .dispatch ∧ i = .process) ∨
      (s.phase = .dispatch ∧ t.phase = .idle ∧ ∃ st, i = .hdone st)

/-- R34, R36, R46: who writes `len`, and who writes a buffer byte. -/
def Obligations.WritersOfLenAndBuffer : Prop :=
  ∀ (i : Instr) (s t : State), exec i s = .next t →
    (t.len ≠ s.len → (∃ b, i = .append b) ∨ i = .process ∨ ∃ st, i = .hdone st) ∧
    ∀ a, t.byte a ≠ s.byte a →
      a < 255 ∧
      ((∃ b, i = .append b) ∨ i = .process ∨ (∃ x d, i = .bufWr x d) ∨ (∃ p, i = .send p) ∨
        ((∃ st, i = .hdone st) ∧ s.cfg.keepTrailing = true))

/-- R42, R193 (e): a framing counter, `cnt[0]`, `cnt[4]` or a call counter changes only in an accepted PROCESS, `cnt[5]`
and `cnt[7]` only in an HDONE. -/
def Obligations.WritersOfTheCounters : Prop :=
  ∀ (i : Instr) (s t : State), exec i s = .next t →
    (i ≠ .process ∨ s.phase = .dispatch →
      t.cnt.attempts = s.cnt.attempts ∧ t.cnt.badId = s.cnt.badId ∧ t.cnt.badSize = s.cnt.badSize ∧
      t.cnt.badCs = s.cnt.badCs ∧ t.cnt.hInvoked = s.cnt.hInvoked ∧ t.cnt.notFull = s.cnt.notFull ∧
      t.dcnt = s.dcnt) ∧
    ((∀ st, i ≠ .hdone st) ∨ s.phase = .idle →
      t.cnt.hDone = s.cnt.hDone ∧ t.cnt.nonemptyAfter = s.cnt.nonemptyAfter)

/-- R95, R158: every request performed gets exactly one response, to its own agent, and its port is freed; an APPEND or
PROCESS held in DISPATCH, and a PROCESS that dispatches, get none yet; an HDONE in DISPATCH also gives the outstanding
PROCESS its one response. The last case is none of these. -/
def Obligations.EveryRequestIsAnsweredOnce : Prop :=
  ∀ (i : Instr) (s t : State), exec i s = .next t →
    (t = s ∧ s.phase = .dispatch ∧ ((∃ b, i = .append b) ∨ i = .process)) ∨
    (t.ports = s.ports.set s.turn none ∧
      ((i = .process ∧ s.phase = .idle ∧ t.phase = .dispatch ∧ t.responses = s.responses ∧ t.outstanding = some s.turn) ∨
        ((∃ st, i = .hdone st) ∧ s.phase = .dispatch ∧ t.outstanding = none ∧
          t.responses = s.responses ++ ⟨s.turn, .ok, 0⟩ :: s.outstanding.toList.map fun a => ⟨a, .ok, 1⟩) ∨
        (((∃ b, i = .append b) ∨ i = .process → s.phase = .idle ∧ t.phase = .idle) ∧
          ((∃ st, i = .hdone st) → s.phase = .idle) ∧
          ∃ st d, t.responses = s.responses ++ [⟨s.turn, st, d⟩] ∧ t.outstanding = s.outstanding)))

/-- R193 (c), while `cnt[5]` does not wrap: every step keeps `cnt[7] <= cnt[5]`. -/
def Obligations.TrailingCountNeverExceedsDispatches : Prop :=
  ∀ s t : State, step s = .next t → s.cnt.hDone ≠ BitVec.allOnes 32 → s.cnt.nonemptyAfter ≤ s.cnt.hDone →
    t.cnt.nonemptyAfter ≤ t.cnt.hDone

/-- R160: while no HDONE is pending or comes and reset is not touched, the FSV stays in DISPATCH for ever, whatever the
agents do: `len` and the outstanding PROCESS stay as they are, and no APPEND or PROCESS pending on a port is performed. -/
def Obligations.StuckHandlerStallsTheFsv : Prop :=
  ∀ (n : Nat) (s t : State), s.phase = .dispatch → s.neverReturns → noReset s.inputs = true →
    steps n s = .next t →
    t.phase = .dispatch ∧ t.len = s.len ∧ t.outstanding = s.outstanding ∧
    ∀ a w, s.ports.get a = some w → (decode w = .ok .process ∨ ∃ b, decode w = .ok (.append b)) →
      t.ports.get a = some w

/-- R99: the dispatch output's fields hold steady for the whole dispatch, even if the handler overwrites `buf[0]`. -/
def Obligations.DispatchOutputHoldsSteady : Prop :=
  ∀ (i : Instr) (s t : State), exec i s = .next t → s.phase = .dispatch → t.phase = .dispatch →
    t.dispatchOutput = s.dispatchOutput

/-- R96, R202: a request answered with an error changes no state, and its data word is 0. -/
def Obligations.ErroneousRequestChangesNothing : Prop :=
  ∀ (i : Instr) (s t : State) (st : Status) (d : Word), exec i s = .next t →
    t.responses = s.responses ++ [⟨s.turn, st, d⟩] → st ≠ .ok →
    d = 0 ∧
    t = { s with
      ports := s.ports.set s.turn none
      responses := s.responses ++ [⟨s.turn, st, 0⟩] }

/-- R74, R170: a request hands at most one frame to the TX sink, whole and after every frame before it; only a SEND
performed in DISPATCH does, and the frame has `p + 3` bytes. -/
def Obligations.OnlySendTransmits : Prop :=
  ∀ (i : Instr) (s t : State), exec i s = .next t → t.tx ≠ s.tx →
    s.phase = .dispatch ∧ ∃ p f, i = .send p ∧ p.toNat ≤ 252 ∧ f.length = p.toNat + 3 ∧ t.tx = s.tx ++ [f]

/-! ### Fairness -/

/-- R95, R113, R230: a pending request stays on its port, the same, until the step that performs it, which is one that takes
it up while the FSV accepts it, or a reset; either leaves the port empty. -/
def Obligations.PendingRequestStaysUntilPerformedOrReset : Prop :=
  ∀ (s t : State) (a : Agent) (w : Word), step s = .next t → s.ports.get a = some w →
    (s.performsNext a w ∧ t.ports.get a = none) ∨ (s.resetsNext ∧ t.ports.get a = none) ∨
      (¬s.performsNext a w ∧ ¬s.resetsNext ∧ t.ports.get a = some w)

/-- R249: in a fair run every pending request that both phases accept is eventually performed, and so is every APPEND and
PROCESS if the FSV comes back to IDLE again and again, unless a reset drops it first; it stays pending until then. The
reading of R249 for held requests is the model's (DEDUCED, notes/assumptions/28.md). -/
def Obligations.FairRunsPerformWhatThePhaseAccepts : Prop :=
  ∀ (σ : Nat → List Input) (ρ : Nat → State), isRun σ ρ → fair σ ρ →
    ∀ (n : Nat) (a : Agent) (w : Word), (ρ n).ports.get a = some w → (ρ n).resetLine = false →
      (waitsForIdle w = true → ∀ m, n ≤ m → ∃ k, m ≤ k ∧ (ρ k).phase = .idle) →
      ∃ m, n ≤ m ∧ (∀ k, n ≤ k → k ≤ m → (ρ k).ports.get a = some w) ∧ (ρ (m + 1)).ports.get a = none ∧
        (((ρ m).given (σ m)).performsNext a w ∨ ((ρ m).given (σ m)).resetsNext)

/-- R249: fairness can be kept from every state, whatever inputs it holds, and with no reset added. That inputs are given
after those given before is the model's choice (DESIGN CHOICE, notes/assumptions/5.md). -/
def Obligations.EveryStateHasAFairRun : Prop :=
  ∀ s : State, s.cfg.failure = none →
    ∃ (σ : Nat → List Input) (ρ : Nat → State), ρ 0 = s ∧ isRun σ ρ ∧ fair σ ρ ∧ ∀ n, noReset (σ n) = true

end
end

