-- ==== Sys2Proof/Laws/State.lean ====
section
/-! SUPPORT. One lemma for each field of State under each update the operations make, so that no later proof unfolds a
record update. -/

namespace Sys2Proof.Machine

variable (s : State)

/-! `setByte` writes `buf` only. -/

@[simp] theorem State.setByte_cfg (i : Nat) (b : Byte) : (s.setByte i b).cfg = s.cfg := rfl
@[simp] theorem State.setByte_buf (i : Nat) (b : Byte) : (s.setByte i b).buf = s.buf.write i b := rfl
@[simp] theorem State.setByte_len (i : Nat) (b : Byte) : (s.setByte i b).len = s.len := rfl
@[simp] theorem State.setByte_first (i : Nat) (b : Byte) : (s.setByte i b).first = s.first := rfl
@[simp] theorem State.setByte_phase (i : Nat) (b : Byte) : (s.setByte i b).phase = s.phase := rfl
@[simp] theorem State.setByte_curE (i : Nat) (b : Byte) : (s.setByte i b).curE = s.curE := rfl
@[simp] theorem State.setByte_curSize (i : Nat) (b : Byte) : (s.setByte i b).curSize = s.curSize := rfl
@[simp] theorem State.setByte_cnt (i : Nat) (b : Byte) : (s.setByte i b).cnt = s.cnt := rfl
@[simp] theorem State.setByte_dcnt (i : Nat) (b : Byte) : (s.setByte i b).dcnt = s.dcnt := rfl
@[simp] theorem State.setByte_ports (i : Nat) (b : Byte) : (s.setByte i b).ports = s.ports := rfl
@[simp] theorem State.setByte_outstanding (i : Nat) (b : Byte) : (s.setByte i b).outstanding = s.outstanding := rfl
@[simp] theorem State.setByte_resetLine (i : Nat) (b : Byte) : (s.setByte i b).resetLine = s.resetLine := rfl
@[simp] theorem State.setByte_session (i : Nat) (b : Byte) : (s.setByte i b).session = s.session := rfl
@[simp] theorem State.setByte_turn (i : Nat) (b : Byte) : (s.setByte i b).turn = s.turn := rfl
@[simp] theorem State.setByte_inputs (i : Nat) (b : Byte) : (s.setByte i b).inputs = s.inputs := rfl
@[simp] theorem State.setByte_responses (i : Nat) (b : Byte) : (s.setByte i b).responses = s.responses := rfl
@[simp] theorem State.setByte_tx (i : Nat) (b : Byte) : (s.setByte i b).tx = s.tx := rfl
@[simp] theorem State.setByte_trace (i : Nat) (b : Byte) : (s.setByte i b).trace = s.trace := rfl

/-! `count` writes `cnt` only. -/

@[simp] theorem State.count_cfg (k : CounterId) : (s.count k).cfg = s.cfg := rfl
@[simp] theorem State.count_buf (k : CounterId) : (s.count k).buf = s.buf := rfl
@[simp] theorem State.count_len (k : CounterId) : (s.count k).len = s.len := rfl
@[simp] theorem State.count_first (k : CounterId) : (s.count k).first = s.first := rfl
@[simp] theorem State.count_phase (k : CounterId) : (s.count k).phase = s.phase := rfl
@[simp] theorem State.count_curE (k : CounterId) : (s.count k).curE = s.curE := rfl
@[simp] theorem State.count_curSize (k : CounterId) : (s.count k).curSize = s.curSize := rfl
@[simp] theorem State.count_cnt (k : CounterId) : (s.count k).cnt = s.cnt.inc k := rfl
@[simp] theorem State.count_dcnt (k : CounterId) : (s.count k).dcnt = s.dcnt := rfl
@[simp] theorem State.count_ports (k : CounterId) : (s.count k).ports = s.ports := rfl
@[simp] theorem State.count_outstanding (k : CounterId) : (s.count k).outstanding = s.outstanding := rfl
@[simp] theorem State.count_resetLine (k : CounterId) : (s.count k).resetLine = s.resetLine := rfl
@[simp] theorem State.count_session (k : CounterId) : (s.count k).session = s.session := rfl
@[simp] theorem State.count_turn (k : CounterId) : (s.count k).turn = s.turn := rfl
@[simp] theorem State.count_inputs (k : CounterId) : (s.count k).inputs = s.inputs := rfl
@[simp] theorem State.count_responses (k : CounterId) : (s.count k).responses = s.responses := rfl
@[simp] theorem State.count_tx (k : CounterId) : (s.count k).tx = s.tx := rfl
@[simp] theorem State.count_trace (k : CounterId) : (s.count k).trace = s.trace := rfl

/-! `note` writes the trace only. -/

@[simp] theorem State.note_cfg (e : FramingEvent) : (s.note e).cfg = s.cfg := rfl
@[simp] theorem State.note_buf (e : FramingEvent) : (s.note e).buf = s.buf := rfl
@[simp] theorem State.note_len (e : FramingEvent) : (s.note e).len = s.len := rfl
@[simp] theorem State.note_first (e : FramingEvent) : (s.note e).first = s.first := rfl
@[simp] theorem State.note_phase (e : FramingEvent) : (s.note e).phase = s.phase := rfl
@[simp] theorem State.note_curE (e : FramingEvent) : (s.note e).curE = s.curE := rfl
@[simp] theorem State.note_curSize (e : FramingEvent) : (s.note e).curSize = s.curSize := rfl
@[simp] theorem State.note_cnt (e : FramingEvent) : (s.note e).cnt = s.cnt := rfl
@[simp] theorem State.note_dcnt (e : FramingEvent) : (s.note e).dcnt = s.dcnt := rfl
@[simp] theorem State.note_ports (e : FramingEvent) : (s.note e).ports = s.ports := rfl
@[simp] theorem State.note_outstanding (e : FramingEvent) : (s.note e).outstanding = s.outstanding := rfl
@[simp] theorem State.note_resetLine (e : FramingEvent) : (s.note e).resetLine = s.resetLine := rfl
@[simp] theorem State.note_session (e : FramingEvent) : (s.note e).session = s.session := rfl
@[simp] theorem State.note_turn (e : FramingEvent) : (s.note e).turn = s.turn := rfl
@[simp] theorem State.note_inputs (e : FramingEvent) : (s.note e).inputs = s.inputs := rfl
@[simp] theorem State.note_responses (e : FramingEvent) : (s.note e).responses = s.responses := rfl
@[simp] theorem State.note_tx (e : FramingEvent) : (s.note e).tx = s.tx := rfl
@[simp] theorem State.note_trace (e : FramingEvent) : (s.note e).trace = s.trace ++ [.framing e] := rfl

/-! `emitTx` writes the sink's record only. -/

@[simp] theorem State.emitTx_cfg (f : List Byte) : (s.emitTx f).cfg = s.cfg := rfl
@[simp] theorem State.emitTx_buf (f : List Byte) : (s.emitTx f).buf = s.buf := rfl
@[simp] theorem State.emitTx_len (f : List Byte) : (s.emitTx f).len = s.len := rfl
@[simp] theorem State.emitTx_first (f : List Byte) : (s.emitTx f).first = s.first := rfl
@[simp] theorem State.emitTx_phase (f : List Byte) : (s.emitTx f).phase = s.phase := rfl
@[simp] theorem State.emitTx_curE (f : List Byte) : (s.emitTx f).curE = s.curE := rfl
@[simp] theorem State.emitTx_curSize (f : List Byte) : (s.emitTx f).curSize = s.curSize := rfl
@[simp] theorem State.emitTx_cnt (f : List Byte) : (s.emitTx f).cnt = s.cnt := rfl
@[simp] theorem State.emitTx_dcnt (f : List Byte) : (s.emitTx f).dcnt = s.dcnt := rfl
@[simp] theorem State.emitTx_ports (f : List Byte) : (s.emitTx f).ports = s.ports := rfl
@[simp] theorem State.emitTx_outstanding (f : List Byte) : (s.emitTx f).outstanding = s.outstanding := rfl
@[simp] theorem State.emitTx_resetLine (f : List Byte) : (s.emitTx f).resetLine = s.resetLine := rfl
@[simp] theorem State.emitTx_session (f : List Byte) : (s.emitTx f).session = s.session := rfl
@[simp] theorem State.emitTx_turn (f : List Byte) : (s.emitTx f).turn = s.turn := rfl
@[simp] theorem State.emitTx_inputs (f : List Byte) : (s.emitTx f).inputs = s.inputs := rfl
@[simp] theorem State.emitTx_responses (f : List Byte) : (s.emitTx f).responses = s.responses := rfl
@[simp] theorem State.emitTx_tx (f : List Byte) : (s.emitTx f).tx = s.tx ++ [f] := rfl
@[simp] theorem State.emitTx_trace (f : List Byte) : (s.emitTx f).trace = s.trace := rfl

/-! `respond` writes the ports and the record of responses only. -/

@[simp] theorem State.respond_cfg (st : Status) (d : Word) : (s.respond st d).cfg = s.cfg := rfl
@[simp] theorem State.respond_buf (st : Status) (d : Word) : (s.respond st d).buf = s.buf := rfl
@[simp] theorem State.respond_len (st : Status) (d : Word) : (s.respond st d).len = s.len := rfl
@[simp] theorem State.respond_first (st : Status) (d : Word) : (s.respond st d).first = s.first := rfl
@[simp] theorem State.respond_phase (st : Status) (d : Word) : (s.respond st d).phase = s.phase := rfl
@[simp] theorem State.respond_curE (st : Status) (d : Word) : (s.respond st d).curE = s.curE := rfl
@[simp] theorem State.respond_curSize (st : Status) (d : Word) : (s.respond st d).curSize = s.curSize := rfl
@[simp] theorem State.respond_cnt (st : Status) (d : Word) : (s.respond st d).cnt = s.cnt := rfl
@[simp] theorem State.respond_dcnt (st : Status) (d : Word) : (s.respond st d).dcnt = s.dcnt := rfl
@[simp] theorem State.respond_ports (st : Status) (d : Word) : (s.respond st d).ports = s.ports.set s.turn none := rfl
@[simp] theorem State.respond_outstanding (st : Status) (d : Word) : (s.respond st d).outstanding = s.outstanding := rfl
@[simp] theorem State.respond_resetLine (st : Status) (d : Word) : (s.respond st d).resetLine = s.resetLine := rfl
@[simp] theorem State.respond_session (st : Status) (d : Word) : (s.respond st d).session = s.session := rfl
@[simp] theorem State.respond_turn (st : Status) (d : Word) : (s.respond st d).turn = s.turn := rfl
@[simp] theorem State.respond_inputs (st : Status) (d : Word) : (s.respond st d).inputs = s.inputs := rfl
@[simp] theorem State.respond_responses (st : Status) (d : Word) : (s.respond st d).responses = s.responses ++ [⟨s.turn, st, d⟩] := rfl
@[simp] theorem State.respond_tx (st : Status) (d : Word) : (s.respond st d).tx = s.tx := rfl
@[simp] theorem State.respond_trace (st : Status) (d : Word) : (s.respond st d).trace = s.trace := rfl

/-! `dispatchEntry` writes what R130 and R158 name. -/

@[simp] theorem State.dispatchEntry_cfg (e size : Nat) : (s.dispatchEntry e size).cfg = s.cfg := rfl
@[simp] theorem State.dispatchEntry_buf (e size : Nat) : (s.dispatchEntry e size).buf = s.buf := rfl
@[simp] theorem State.dispatchEntry_len (e size : Nat) : (s.dispatchEntry e size).len = s.len := rfl
@[simp] theorem State.dispatchEntry_first (e size : Nat) : (s.dispatchEntry e size).first = s.first := rfl
@[simp] theorem State.dispatchEntry_phase (e size : Nat) : (s.dispatchEntry e size).phase = .dispatch := rfl
@[simp] theorem State.dispatchEntry_curE (e size : Nat) : (s.dispatchEntry e size).curE = BitVec.ofNat 8 e := rfl
@[simp] theorem State.dispatchEntry_curSize (e size : Nat) : (s.dispatchEntry e size).curSize = BitVec.ofNat 8 size := rfl
@[simp] theorem State.dispatchEntry_cnt (e size : Nat) : (s.dispatchEntry e size).cnt = s.cnt.inc .hInvoked := rfl
@[simp] theorem State.dispatchEntry_dcnt (e size : Nat) : (s.dispatchEntry e size).dcnt = incDcnt s.dcnt e := rfl
@[simp] theorem State.dispatchEntry_ports (e size : Nat) : (s.dispatchEntry e size).ports = s.ports.set s.turn none := rfl
@[simp] theorem State.dispatchEntry_outstanding (e size : Nat) : (s.dispatchEntry e size).outstanding = some s.turn := rfl
@[simp] theorem State.dispatchEntry_resetLine (e size : Nat) : (s.dispatchEntry e size).resetLine = s.resetLine := rfl
@[simp] theorem State.dispatchEntry_session (e size : Nat) : (s.dispatchEntry e size).session = s.session := rfl
@[simp] theorem State.dispatchEntry_turn (e size : Nat) : (s.dispatchEntry e size).turn = s.turn := rfl
@[simp] theorem State.dispatchEntry_inputs (e size : Nat) : (s.dispatchEntry e size).inputs = s.inputs := rfl
@[simp] theorem State.dispatchEntry_responses (e size : Nat) : (s.dispatchEntry e size).responses = s.responses := rfl
@[simp] theorem State.dispatchEntry_tx (e size : Nat) : (s.dispatchEntry e size).tx = s.tx := rfl
@[simp] theorem State.dispatchEntry_trace (e size : Nat) : (s.dispatchEntry e size).trace = s.trace ++ [.dispatched e (payloadLength size)] := rfl

/-! `applyReset` writes what R45 lists, the reset line and the session. -/

@[simp] theorem State.applyReset_cfg (line : Bool) : (s.applyReset line).cfg = s.cfg := rfl
@[simp] theorem State.applyReset_buf (line : Bool) : (s.applyReset line).buf = [] := rfl
@[simp] theorem State.applyReset_len (line : Bool) : (s.applyReset line).len = 0 := rfl
@[simp] theorem State.applyReset_first (line : Bool) : (s.applyReset line).first = true := rfl
@[simp] theorem State.applyReset_phase (line : Bool) : (s.applyReset line).phase = .idle := rfl
@[simp] theorem State.applyReset_curE (line : Bool) : (s.applyReset line).curE = 0 := rfl
@[simp] theorem State.applyReset_curSize (line : Bool) : (s.applyReset line).curSize = 0 := rfl
@[simp] theorem State.applyReset_cnt (line : Bool) : (s.applyReset line).cnt = Counters.zero := rfl
@[simp] theorem State.applyReset_dcnt (line : Bool) : (s.applyReset line).dcnt = List.replicate s.cfg.nCmd 0 := rfl
@[simp] theorem State.applyReset_ports (line : Bool) : (s.applyReset line).ports = Ports.empty := rfl
@[simp] theorem State.applyReset_outstanding (line : Bool) : (s.applyReset line).outstanding = none := rfl
@[simp] theorem State.applyReset_resetLine (line : Bool) : (s.applyReset line).resetLine = line := rfl
@[simp] theorem State.applyReset_session (line : Bool) : (s.applyReset line).session = s.session + 1 := rfl
@[simp] theorem State.applyReset_turn (line : Bool) : (s.applyReset line).turn = s.turn := rfl
@[simp] theorem State.applyReset_inputs (line : Bool) : (s.applyReset line).inputs = s.inputs := rfl
@[simp] theorem State.applyReset_responses (line : Bool) : (s.applyReset line).responses = s.responses := rfl
@[simp] theorem State.applyReset_tx (line : Bool) : (s.applyReset line).tx = s.tx := rfl
@[simp] theorem State.applyReset_trace (line : Bool) : (s.applyReset line).trace = s.trace := rfl

end Sys2Proof.Machine
end

