-- ==== Sys2Proof/Laws/Memory.lean ====
section
/-! SUPPORT. The laws of the receive buffer: read after write, the canonical form and that every operation keeps it,
what the byte loops leave. -/

namespace Sys2Proof.Machine

/-! ### One byte -/

theorem Memory.read_insert (m : Memory) (i j : Nat) (b : Byte) :
    (Memory.insert m i b).read j = if j = i then some b else m.read j := by
  induction m with
  | nil => rfl
  | cons c m ih =>
    obtain ⟨a, x⟩ := c
    unfold Memory.insert
    by_cases h1 : i < a
    · simp [h1, Memory.read]
    by_cases h2 : i = a
    · subst h2
      by_cases h3 : j = i <;> simp [Memory.read, h3]
    · rw [if_neg h1, if_neg h2, Memory.read, Memory.read, ih]
      by_cases h3 : j = i
      · rw [if_pos h3, if_neg (h3 ▸ h2), if_pos h3]
      · simp only [if_neg h3]

theorem Memory.mem_insert_fst (m : Memory) (i a : Nat) (b : Byte)
    (h : a ∈ (Memory.insert m i b).map Prod.fst) : a = i ∨ a ∈ m.map Prod.fst := by
  induction m with
  | nil => simpa [Memory.insert] using h
  | cons c m ih =>
    obtain ⟨x, y⟩ := c
    unfold Memory.insert at h
    split_ifs at h <;> simp only [List.map_cons, List.mem_cons] at h ⊢ <;> tauto

theorem Memory.pairwise_insert (m : Memory) (i : Nat) (b : Byte) (h : (m.map Prod.fst).Pairwise (· < ·)) :
    ((Memory.insert m i b).map Prod.fst).Pairwise (· < ·) := by
  induction m with
  | nil => simp [Memory.insert]
  | cons c m ih =>
    obtain ⟨a, x⟩ := c
    simp only [List.map_cons, List.pairwise_cons] at h
    unfold Memory.insert
    split_ifs with h1 h2
    · simp only [List.map_cons, List.pairwise_cons, List.mem_cons, forall_eq_or_imp]
      exact ⟨⟨h1, fun y hy => lt_trans h1 (h.1 y hy)⟩, h⟩
    · subst h2; simpa using h
    · simp only [List.map_cons, List.pairwise_cons]
      refine ⟨fun y hy => ?_, ih h.2⟩
      rcases Memory.mem_insert_fst m i y b hy with rfl | hy
      · omega
      · exact h.1 y hy

theorem Memory.wf_iff (m : Memory) :
    m.wf = true ↔ (m.map Prod.fst).Pairwise (· < ·) ∧ ∀ a ∈ m.map Prod.fst, a < Config.capacity := by
  simp [Memory.wf]

/-- The canonical form is kept by a write. -/
theorem Memory.wf_write {m : Memory} (h : m.wf = true) (i : Nat) (b : Byte) : (m.write i b).wf = true := by
  unfold Memory.write
  split_ifs with hi
  · rw [Memory.wf_iff] at h ⊢
    refine ⟨Memory.pairwise_insert m i b h.1, fun a ha => ?_⟩
    rcases Memory.mem_insert_fst m i a b ha with rfl | ha
    · exact hi
    · exact h.2 a ha
  · exact h

/-- Reading after a write: the byte written, or what was there. -/
theorem Memory.read_write (m : Memory) {i : Nat} (hi : i < 255) (j : Nat) (b : Byte) :
    (m.write i b).read j = if j = i then some b else m.read j := by
  rw [Memory.write, if_pos (by simpa [Config.capacity] using hi), Memory.read_insert]

theorem State.byte_setByte (s : State) {i : Nat} (hi : i < 255) (j : Nat) (b : Byte) :
    (s.setByte i b).byte j = if j = i then b else s.byte j := by
  simp only [State.byte, State.setByte_buf, State.setByte_session, Memory.read_write _ hi]
  split_ifs <;> rfl

theorem resetWith_buf_wf (c : Configuration) : (State.resetWith c).buf.wf = true := rfl

/-! ### Sums and sequences -/

theorem State.byteSum_congr {s t : State} {n : Nat} (h : ∀ i, i < n → s.byte i = t.byte i) :
    s.byteSum n = t.byteSum n := by
  induction n with
  | zero => rfl
  | succ n ih => simp only [State.byteSum, ih fun i hi => h i (by omega), h n (by omega)]

theorem State.checksum_congr {s t : State} {n : Nat} (h : ∀ i, i < n → s.byte i = t.byte i) :
    s.checksum n = t.checksum n := by
  rw [State.checksum, State.checksum, State.byteSum_congr h]

@[simp] theorem State.length_bytes (s : State) (n : Nat) : (s.bytes n).length = n := by simp [State.bytes]

theorem State.getElem?_bytes (s : State) (n i : Nat) :
    (s.bytes n)[i]? = if i < n then some (s.byte i) else none := by
  by_cases h : i < n <;> simp [State.bytes, h]

theorem State.bytes_congr {s t : State} {n : Nat} (h : ∀ i, i < n → s.byte i = t.byte i) : s.bytes n = t.bytes n := by
  apply List.ext_getElem?
  intro i
  simp only [State.getElem?_bytes]
  split_ifs with hi
  · rw [h i hi]
  · rfl

/-! ### The byte loop -/

/-- The loop writes `buf` only. -/
theorem State.copyDown_eq (k n i : Nat) (s : State) :
    State.copyDown k n i s = { s with buf := (State.copyDown k n i s).buf } := by
  induction n generalizing i s with
  | zero => rfl
  | succ n ih => rw [State.copyDown, ih]; rfl

theorem State.copyDown_wf (k n i : Nat) (s : State) (h : s.buf.wf = true) :
    (State.copyDown k n i s).buf.wf = true := by
  induction n generalizing i s with
  | zero => exact h
  | succ n ih => exact ih _ _ (Memory.wf_write h _ _)

/-- What an ascending copy leaves: each byte of the range holds the byte that stood `k` above it. -/
theorem State.byte_copyDown (k n i : Nat) (s : State) (hn : i + n ≤ 255) (j : Nat) :
    (State.copyDown k n i s).byte j = if i ≤ j ∧ j < i + n then s.byte (j + k) else s.byte j := by
  induction n generalizing i s with
  | zero => rw [State.copyDown, if_neg (by omega)]
  | succ n ih =>
    rw [State.copyDown, ih (i + 1) _ (by omega)]
    simp only [State.byte_setByte s (show i < 255 by omega)]
    by_cases h1 : j = i
    · subst h1; simp
    · have e : (i + 1 ≤ j ∧ j < i + 1 + n) ↔ (i ≤ j ∧ j < i + (n + 1)) := by omega
      simp only [h1, if_false, e]
      split_ifs with h2 h3 <;> first | rfl | omega

/-- A byte of the range, and a byte that was written before, is written after. -/
theorem State.copyDown_isSome (k n i : Nat) (s : State) (hn : i + n ≤ 255) (j : Nat)
    (hj : (s.buf.read j).isSome = true ∨ (i ≤ j ∧ j < i + n)) :
    ((State.copyDown k n i s).buf.read j).isSome = true := by
  induction n generalizing i s with
  | zero => rcases hj with hj | hj
            · exact hj
            · omega
  | succ n ih =>
    apply ih (i + 1) _ (by omega)
    rw [State.setByte_buf, Memory.read_write _ (by omega)]
    by_cases h1 : j = i
    · simp [h1]
    · rcases hj with hj | hj
      · left; simp [h1, hj]
      · right; omega

end Sys2Proof.Machine
end

