-- ==== Sys2Proof/Laws/Ops.lean ====
section
/-! SUPPORT. What each shared operation can do, said once: the phase and range checks, the ports, LOOKUP, the verdict on
the head, DISCARD, the scan, the return from a dispatch, fetching, and one step. -/

namespace Sys2Proof.Machine

/-! ### Checks -/

section
variable {s t : State} {k : Host.Outcome State Fault Refusal}

@[simp] theorem whenIdle_idle (h : s.phase = .idle) : whenIdle s k = k := by simp [whenIdle, h]

@[simp] theorem whenIdle_dispatch (h : s.phase = .dispatch) : whenIdle s k = .next s := by simp [whenIdle, h, hold]

@[simp] theorem whenDispatch_idle (h : s.phase = .idle) : whenDispatch s k = .next (s.respond .errState 0) := by
  simp [whenDispatch, h]

@[simp] theorem whenDispatch_dispatch (h : s.phase = .dispatch) : whenDispatch s k = k := by simp [whenDispatch, h]

@[simp] theorem whenInRange_true : whenInRange true s k = k := rfl

@[simp] theorem whenInRange_false : whenInRange false s k = .next (s.respond .errRange 0) := rfl

/-- An operation of IDLE that answers a next state was performed in IDLE, or held. -/
theorem whenIdle_next (h : whenIdle s k = .next t) : (s.phase = .idle ∧ k = .next t) ∨ (s.phase = .dispatch ∧ t = s) := by
  cases hp : s.phase
  · exact .inl ⟨rfl, by rwa [whenIdle_idle hp] at h⟩
  · rw [whenIdle_dispatch hp] at h; cases h; exact .inr ⟨rfl, rfl⟩

/-- A handler operation that answers a next state was performed in DISPATCH, or answered `ERR_STATE`. -/
theorem whenDispatch_next (h : whenDispatch s k = .next t) :
    (s.phase = .dispatch ∧ k = .next t) ∨ (s.phase = .idle ∧ t = s.respond .errState 0) := by
  cases hp : s.phase
  · rw [whenDispatch_idle hp] at h; cases h; exact .inr ⟨rfl, rfl⟩
  · exact .inl ⟨rfl, by rwa [whenDispatch_dispatch hp] at h⟩

/-- A range-checked operation that answers a next state was in range, or answered `ERR_RANGE`. -/
theorem whenInRange_next {legal : Bool} (h : whenInRange legal s k = .next t) :
    (legal = true ∧ k = .next t) ∨ (legal = false ∧ t = s.respond .errRange 0) := by
  cases legal
  · cases h; exact .inr ⟨rfl, rfl⟩
  · exact .inl ⟨rfl, h⟩

end

/-! ### Ports -/

@[simp] theorem Ports.get_set (p : Ports) (a b : Agent) (w : Option Word) :
    (p.set a w).get b = if b = a then w else p.get b := by
  cases a <;> cases b <;> rfl

/-! ### LOOKUP -/

theorem lookup_eq_some {c : Configuration} {b : Byte} {e : Nat} (h : lookup c b = some e) :
    ∃ d, c.table[e]? = some d ∧ d.id = b ∧ e < c.nCmd := by
  rw [lookup, List.findIdx?_eq_some_iff_getElem] at h
  obtain ⟨h1, h2, -⟩ := h
  exact ⟨c.table[e], by simp [h1], by simpa using h2, h1⟩

theorem lookup_eq_none {c : Configuration} {b : Byte} : lookup c b = none ↔ ∀ d ∈ c.table, d.id ≠ b := by
  simp [lookup, List.findIdx?_eq_none_iff]

theorem entrySize_of_getElem? {c : Configuration} {e : Nat} {d : Descriptor} (h : c.table[e]? = some d) :
    entrySize c e = d.size := by simp [entrySize, h]

theorem Configuration.failure_eq_none {c : Configuration} : c.failure = none ↔ ∀ k, c.passes k = true := by
  constructor
  · intro h k
    have := List.find?_eq_none.1 h k (by cases k <;> simp [ConfigCheck.all])
    simpa using this
  · intro h
    exact List.find?_eq_none.2 fun k _ => by simp [h k]

theorem Configuration.wf_iff {c : Configuration} : c.wf = true ↔ c.failure = none := by
  rw [Configuration.failure_eq_none, Configuration.wf, List.all_eq_true]
  exact ⟨fun h k => h k (by cases k <;> simp [ConfigCheck.all]), fun h k _ => h k⟩

/-- What well-formedness says of an entry (R12, R11). -/
theorem Configuration.entry_bounds {c : Configuration} (h : c.failure = none) {e : Nat} {d : Descriptor}
    (hd : c.table[e]? = some d) : d.id ≤ 0x7F ∧ 3 ≤ d.size ∧ d.size ≤ 255 ∧ d.handler < c.nHandler ∧ e < 256 := by
  rw [Configuration.failure_eq_none] at h
  have hm : d ∈ c.table := List.mem_of_getElem? hd
  have h1 := List.all_eq_true.1 (h .id7bit) d hm
  have h2 := List.all_eq_true.1 (h .sizeMin) d hm
  have h3 := List.all_eq_true.1 (h .sizeMax) d hm
  have h4 := List.all_eq_true.1 (h .handlerRange) d hm
  have h5 : c.nCmd ≤ 256 := by simpa [Configuration.passes] using h .nCmdRange
  have h6 : e < c.table.length := (List.getElem?_eq_some_iff.1 hd).1
  exact ⟨by simpa using h1, of_decide_eq_true h2, of_decide_eq_true h3, by simpa using h4,
    lt_of_lt_of_le h6 h5⟩

/-! ### The verdict -/

/-- What the head is, for each verdict (R124 to R130). -/
theorem State.verdict_spec (s : State) :
    match s.verdict with
    | .insufficient => s.len.toNat ≤ 2
    | .syncFail => 2 < s.len.toNat ∧ syncHolds s.cfg.sync s.buffered = false
    | .badId => 2 < s.len.toNat ∧ syncHolds s.cfg.sync s.buffered = true ∧ lookup s.cfg (s.byte 0) = none
    | .badSize => 2 < s.len.toNat ∧ syncHolds s.cfg.sync s.buffered = true ∧
        ∃ e, lookup s.cfg (s.byte 0) = some e ∧ frameSize (s.byte 1) ≠ entrySize s.cfg e
    | .notFull => 2 < s.len.toNat ∧ syncHolds s.cfg.sync s.buffered = true ∧
        ∃ e, lookup s.cfg (s.byte 0) = some e ∧ frameSize (s.byte 1) = entrySize s.cfg e ∧
          s.len.toNat < frameSize (s.byte 1)
    | .badCs => 2 < s.len.toNat ∧ syncHolds s.cfg.sync s.buffered = true ∧
        ∃ e, lookup s.cfg (s.byte 0) = some e ∧ frameSize (s.byte 1) = entrySize s.cfg e ∧
          frameSize (s.byte 1) ≤ s.len.toNat ∧
          s.checksum (frameSize (s.byte 1) - 1) ≠ s.byte (frameSize (s.byte 1) - 1)
    | .valid e size => 2 < s.len.toNat ∧ syncHolds s.cfg.sync s.buffered = true ∧
        lookup s.cfg (s.byte 0) = some e ∧ frameSize (s.byte 1) = size ∧ entrySize s.cfg e = size ∧
          size ≤ s.len.toNat ∧ s.checksum (size - 1) = s.byte (size - 1) := by
  unfold State.verdict
  by_cases h1 : s.len.toNat ≤ Config.hdr
  · rw [if_pos h1]; exact h1
  rw [if_neg h1]
  have h1 : 2 < s.len.toNat := by simpa [Config.hdr] using h1
  cases h2 : syncHolds s.cfg.sync s.buffered
  · exact ⟨h1, rfl⟩
  simp only [Bool.not_true, Bool.false_eq_true, if_false]
  cases h3 : lookup s.cfg (s.byte 0) with
  | none => exact ⟨h1, trivial, rfl⟩
  | some e =>
    by_cases h4 : frameSize (s.byte 1) = entrySize s.cfg e
    · by_cases h5 : s.len.toNat < frameSize (s.byte 1)
      · simp only [h4, ne_eq, not_true_eq_false, if_false] at h5 ⊢
        rw [if_pos h5]
        exact ⟨h1, trivial, e, rfl, rfl, h5⟩
      · by_cases h6 : s.checksum (frameSize (s.byte 1) - 1) = s.byte (frameSize (s.byte 1) - 1)
        · simp only [ne_eq, h4, not_true_eq_false, if_false] at h5 h6 ⊢
          rw [if_neg h5, if_neg (by simpa using h6)]
          exact ⟨h1, trivial, rfl, rfl, rfl, by omega, h6⟩
        · simp only [ne_eq, h4, not_true_eq_false, if_false] at h5 h6 ⊢
          rw [if_neg h5, if_pos (by simpa using h6)]
          exact ⟨h1, trivial, e, rfl, rfl, by omega, h6⟩
    · simp only [ne_eq, h4, not_false_eq_true, if_true]
      exact ⟨h1, trivial, e, rfl, h4⟩

/-- The verdict on a buffer of more than two bytes (R124, steps 2 to 7). -/
theorem State.verdict_of_two_lt {s : State} (h : 2 < s.len.toNat) :
    s.verdict =
      if syncHolds s.cfg.sync s.buffered = false then .syncFail
      else
        match lookup s.cfg (s.byte 0) with
        | none => .badId
        | some e =>
          if frameSize (s.byte 1) ≠ entrySize s.cfg e then .badSize
          else if s.len.toNat < frameSize (s.byte 1) then .notFull
          else if s.checksum (frameSize (s.byte 1) - 1) ≠ s.byte (frameSize (s.byte 1) - 1) then .badCs
          else .valid e (frameSize (s.byte 1)) := by
  have h : ¬ s.len.toNat ≤ Config.hdr := by simpa [Config.hdr] using h
  rw [State.verdict, if_neg h]
  cases syncHolds s.cfg.sync s.buffered <;> rfl

/-- The verdict reads the configuration and the buffered bytes only. -/
theorem State.verdict_congr {s t : State} (hc : t.cfg = s.cfg) (hl : t.len = s.len)
    (hb : ∀ i, i < s.len.toNat → t.byte i = s.byte i) : t.verdict = s.verdict := by
  by_cases h : s.len.toNat ≤ Config.hdr
  · simp [State.verdict, hl, h]
  · have h2 : 2 < s.len.toNat := by simpa [Config.hdr] using h
    have hbuf : t.buffered = s.buffered := by rw [State.buffered, State.buffered, hl]; exact State.bytes_congr hb
    have hz : t.byte 0 = s.byte 0 := hb 0 (by omega)
    have ho : t.byte 1 = s.byte 1 := hb 1 (by omega)
    unfold State.verdict
    rw [hc, hl, hbuf, hz, ho]
    by_cases h5 : s.len.toNat < frameSize (s.byte 1)
    · simp only [if_pos h5]
    · have h6 : frameSize (s.byte 1) - 1 < s.len.toNat := by
        have : 2 ≤ frameSize (s.byte 1) := by simp [frameSize, Config.hdr]
        omega
      have h7 : t.checksum (frameSize (s.byte 1) - 1) = s.checksum (frameSize (s.byte 1) - 1) :=
        State.checksum_congr fun i hi => hb i (by omega)
      rw [h7, hb _ h6]

/-! ### DISCARD -/

/-- DISCARD writes `buf`, `len` and the trace only. -/
theorem State.discard_eq (s : State) (r : FramingEvent) :
    s.discard r =
      { s with buf := (State.copyDown 1 (s.len.toNat - 1) 0 s).buf, len := s.len - 1,
               trace := s.trace ++ [.framing r] } := by
  rw [State.discard, State.copyDown_eq]

/-- The bytes DISCARD leaves: the buffered ones moved down by one, every other as it was. -/
theorem State.byte_discard (s : State) (r : FramingEvent) (j : Nat) :
    (s.discard r).byte j = if j < s.len.toNat - 1 then s.byte (j + 1) else s.byte j := by
  have h := State.byte_copyDown 1 (s.len.toNat - 1) 0 s (by omega) j
  rw [State.copyDown_eq] at h
  simp only [zero_le, true_and, zero_add] at h
  rw [← h, State.discard_eq]; rfl

theorem State.len_discard (s : State) (r : FramingEvent) (h : 1 ≤ s.len.toNat) :
    (s.discard r).len.toNat = s.len.toNat - 1 := by
  rw [State.discard_eq]
  show (s.len - 1).toNat = _
  bv_omega

theorem State.discard_wf (s : State) (r : FramingEvent) (h : s.buf.wf = true) : (s.discard r).buf.wf = true := by
  rw [State.discard_eq]; exact State.copyDown_wf _ _ _ _ h

theorem State.discard_written (s : State) (r : FramingEvent) (j : Nat) (h : (s.buf.read j).isSome = true) :
    ((s.discard r).buf.read j).isSome = true := by
  rw [State.discard_eq]; exact State.copyDown_isSome 1 _ 0 s (by omega) j (.inl h)

/-! ### The scan -/

/-- One trip of the scan that does not stop: the head fails a check, is counted where a counter exists, and is
discarded (R123, R126, R127, R129). -/
inductive ScanTrip : State → State → Prop where
  | syncFail {s : State} (h : s.verdict = .syncFail) : ScanTrip s (s.discard .syncFail)
  | badId {s : State} (h : s.verdict = .badId) : ScanTrip s ((s.count .badId).discard .badId)
  | badSize {s : State} (h : s.verdict = .badSize) : ScanTrip s ((s.count .badSize).discard .badSize)
  | badCs {s : State} (h : s.verdict = .badCs) : ScanTrip s ((s.count .badCs).discard .badCs)

/-- The ways a scan ends (R132). -/
inductive ScanEnd : State → State → Prop where
  | insufficient {s : State} (h : s.verdict = .insufficient) : ScanEnd s s.stopInsufficient
  | notFull {s : State} (h : s.verdict = .notFull) : ScanEnd s s.stopNotFull
  | valid {s : State} {e size : Nat} (h : s.verdict = .valid e size) : ScanEnd s (s.dispatchEntry e size)

theorem ScanTrip.two_lt {s t : State} (h : ScanTrip s t) : 2 < s.len.toNat := by
  have := s.verdict_spec
  cases h with
  | syncFail h => rw [h] at this; exact this.1
  | badId h => rw [h] at this; exact this.1
  | badSize h => rw [h] at this; exact this.1
  | badCs h => rw [h] at this; exact this.1

theorem ScanTrip.len {s t : State} (h : ScanTrip s t) : t.len.toNat = s.len.toNat - 1 := by
  have := h.two_lt
  cases h <;> exact State.len_discard _ _ (by simpa using by omega)

/-- The scan, on a bound of at least `len` trips: some trips, then one of the three ends. -/
theorem State.scan_spec {n : Nat} {s : State} (hn : s.len.toNat ≤ n) :
    ∃ u, Relation.ReflTransGen ScanTrip s u ∧ ScanEnd u (s.scan n) := by
  induction n generalizing s with
  | zero =>
    refine ⟨s, .refl, ?_⟩
    have : s.verdict = .insufficient := by simp [State.verdict, Config.hdr]; omega
    exact .insufficient this
  | succ n ih =>
    have go : ∀ t, ScanTrip s t → ∃ u, Relation.ReflTransGen ScanTrip s u ∧ ScanEnd u (t.scan n) := by
      intro t ht
      obtain ⟨u, h1, h2⟩ := ih (s := t) (by have := ht.len; have := ht.two_lt; omega)
      exact ⟨u, .head ht h1, h2⟩
    unfold State.scan
    cases h : s.verdict with
    | insufficient => exact ⟨s, .refl, .insufficient h⟩
    | syncFail => exact go _ (.syncFail h)
    | badId => exact go _ (.badId h)
    | badSize => exact go _ (.badSize h)
    | notFull => exact ⟨s, .refl, .notFull h⟩
    | badCs => exact go _ (.badCs h)
    | valid e size => exact ⟨s, .refl, .valid h⟩

/-- A larger bound than `len` changes nothing. -/
theorem State.scan_bound {n : Nat} {s : State} (hn : s.len.toNat ≤ n) : s.scan n = s.scan s.len.toNat := by
  induction n generalizing s with
  | zero => rw [Nat.le_zero.1 hn]
  | succ n ih =>
    have go : ∀ t, ScanTrip s t → t.scan n = t.scan (s.len.toNat - 1) := by
      intro t ht
      have h1 := ht.len
      have h2 := ht.two_lt
      rw [ih (by omega), h1]
    cases hl : s.len.toNat with
    | zero =>
      have : s.verdict = .insufficient := by simp [State.verdict, hl]
      simp [State.scan, this]
    | succ m =>
      rw [hl, Nat.add_sub_cancel] at go
      unfold State.scan
      cases h : s.verdict with
      | insufficient => rfl
      | syncFail => exact go _ (.syncFail h)
      | badId => exact go _ (.badId h)
      | badSize => exact go _ (.badSize h)
      | notFull => rfl
      | badCs => exact go _ (.badCs h)
      | valid e size => rfl

/-- One trip that does not stop hands on to the scan of what it leaves. -/
theorem State.scan_trip {s t : State} (h : ScanTrip s t) : s.scan s.len.toNat = t.scan t.len.toNat := by
  have h1 := h.len
  have h2 := h.two_lt
  obtain ⟨m, hm⟩ : ∃ m, s.len.toNat = m + 1 := ⟨s.len.toNat - 1, by omega⟩
  have h3 : t.len.toNat = m := by omega
  rw [hm, h3, State.scan]
  cases h with
  | syncFail h => rw [h]
  | badId h => rw [h]
  | badSize h => rw [h]
  | badCs h => rw [h]

/-- The counters after a discard for a reason: the reason's counter incremented, where it has one (R201). -/
def Counters.afterDiscard (c : Counters) : FramingEvent → Counters
  | .badId => c.inc .badId
  | .badSize => c.inc .badSize
  | .badCs => c.inc .badCs
  | .insufficient | .syncFail | .notFull | .overflow | .trailing => c

/-- What a trip does for its reason, field by field, and to each byte. -/
theorem ScanTrip.frame {s t : State} (h : ScanTrip s t) :
    ∃ r, r.isDiscard = true ∧
      t = { s with buf := t.buf, len := s.len - 1, cnt := s.cnt.afterDiscard r, trace := s.trace ++ [.framing r] } ∧
      ∀ j, t.byte j = if j < s.len.toNat - 1 then s.byte (j + 1) else s.byte j := by
  cases h with
  | syncFail h => exact ⟨.syncFail, rfl, State.discard_eq _ _, fun j => State.byte_discard _ _ j⟩
  | badId h => exact ⟨.badId, rfl, State.discard_eq _ _, fun j => State.byte_discard (s.count .badId) _ j⟩
  | badSize h => exact ⟨.badSize, rfl, State.discard_eq _ _, fun j => State.byte_discard (s.count .badSize) _ j⟩
  | badCs h => exact ⟨.badCs, rfl, State.discard_eq _ _, fun j => State.byte_discard (s.count .badCs) _ j⟩

/-- What a chain of trips leaves in each byte: the bytes still buffered come from as far above as bytes were discarded, the
places they vacated hold the old tail, and every other byte is as before. -/
theorem ScanTrip.star_byte {s u : State} (h : Relation.ReflTransGen ScanTrip s u) :
    u.len.toNat ≤ s.len.toNat ∧
      ∀ i, u.byte i =
        if i < u.len.toNat then s.byte (i + (s.len.toNat - u.len.toNat))
        else if i < s.len.toNat then s.byte (s.len.toNat - 1)
        else s.byte i := by
  induction h with
  | refl => exact ⟨le_refl _, fun i => by split_ifs <;> simp⟩
  | @tail v w _ hvw ih =>
    obtain ⟨hle, hbyte⟩ := ih
    have hlen := hvw.len
    have htwo := hvw.two_lt
    obtain ⟨_, -, -, hshift⟩ := hvw.frame
    refine ⟨by omega, fun i => ?_⟩
    rw [hshift i, hbyte i, hbyte (i + 1)]
    split_ifs <;> first | omega | rfl | (congr 1; omega)

/-! ### The return from a dispatch -/

/-- HDONE's consumption of the frame writes `buf` and `len` only. -/
theorem State.consumeFrame_eq (s : State) :
    s.consumeFrame =
      { s with
        buf := if s.cfg.keepTrailing then (State.copyDown s.curSize.toNat (s.len.toNat - s.curSize.toNat) 0 s).buf
               else s.buf
        len := if s.cfg.keepTrailing then BitVec.ofNat 8 (s.len.toNat - s.curSize.toNat) else 0 } := by
  unfold State.consumeFrame
  split_ifs with h
  · rw [State.copyDown_eq]
  · rfl

/-- The return from a dispatch, field by field (R155 to R158). -/
theorem State.dispatchReturn_eq (s : State) :
    s.dispatchReturn =
      { s with
        buf := if s.cfg.keepTrailing then (State.copyDown s.curSize.toNat (s.len.toNat - s.curSize.toNat) 0 s).buf
               else s.buf
        len := if s.cfg.keepTrailing then BitVec.ofNat 8 (s.len.toNat - s.curSize.toNat) else 0
        first := firstAfterDispatch s.cfg s.first
        phase := .idle
        cnt := if s.curSize.toNat < s.len.toNat then (s.cnt.inc .hDone).inc .nonemptyAfter else s.cnt.inc .hDone
        ports := s.ports.set s.turn none
        outstanding := none
        responses := s.responses ++ ⟨s.turn, .ok, 0⟩ :: s.outstanding.toList.map fun a => ⟨a, .ok, 1⟩
        trace := if s.curSize.toNat < s.len.toNat then s.trace ++ [.framing .trailing] else s.trace } := by
  have hc : ∀ (u : State) (k n i : Nat), u.buf = s.buf → u.session = s.session →
      (State.copyDown k n i u).buf = (State.copyDown k n i s).buf := by
    intro u k n i hb hs
    have : ∀ (n i : Nat) (u v : State), u.buf = v.buf → u.session = v.session →
        (State.copyDown k n i u).buf = (State.copyDown k n i v).buf := by
      intro n
      induction n with
      | zero => intro i u v h1 _; exact h1
      | succ n ih =>
        intro i u v h1 h2
        apply ih
        · simp [State.byte, h1, h2]
        · simpa using h2
    exact this n i u s hb hs
  unfold State.dispatchReturn State.countTrailing
  simp only [State.count_curSize, State.count_len]
  cases ho : s.outstanding <;>
  by_cases ht : s.curSize.toNat < s.len.toNat <;>
  simp only [ht, if_true, if_false, State.consumeFrame_eq] <;>
  simp [State.answerOutstanding, State.respond, ho, State.count, State.note, dataFrame, hc]

/-! ### Fetching and one step -/

/-- What an issue can do: it is dropped, or it puts its word on the agent's empty port. -/
theorem State.issue_cases (s : State) (a : Agent) (w : Word) :
    ((s.resetLine = true ∨ s.ports.get a ≠ none ∨ s.outstanding = some a) ∧ s.issue a w = s) ∨
      (s.resetLine = false ∧ s.ports.get a = none ∧ s.outstanding ≠ some a ∧
        s.issue a w = { s with ports := s.ports.set a (some w) }) := by
  unfold State.issue State.busy
  cases hl : s.resetLine <;> cases hp : s.ports.get a <;> by_cases ho : s.outstanding = some a <;> simp [ho]

/-- What fetching can do: it takes one input at most, and yields a word only when it takes up a pending request. -/
theorem State.fetch_cases (s : State) :
    (s.inputs = [] ∧ s.fetch = (s, none)) ∨
    (∃ a w r, s.inputs = .issue a w :: r ∧ s.fetch = (State.issue { s with inputs := r } a w, none)) ∨
    (∃ a w r, s.inputs = .perform a :: r ∧ s.resetLine = false ∧ s.ports.get a = some w ∧
      s.fetch = ({ s with inputs := r, turn := a }, some w)) ∨
    (∃ a r, s.inputs = .perform a :: r ∧ (s.resetLine = true ∨ s.ports.get a = none) ∧
      s.fetch = ({ s with inputs := r }, none)) ∨
    (∃ r, s.inputs = .assertReset :: r ∧ s.fetch = (State.applyReset { s with inputs := r } true, none)) ∨
    (∃ r, s.inputs = .releaseReset :: r ∧ s.resetLine = true ∧
      s.fetch = (State.applyReset { s with inputs := r } false, none)) ∨
    (∃ r, s.inputs = .releaseReset :: r ∧ s.resetLine = false ∧ s.fetch = ({ s with inputs := r }, none)) := by
  unfold State.fetch
  rcases hi : s.inputs with _ | ⟨i, r⟩
  · simp
  · cases i with
    | issue a w => simp
    | perform a => cases hl : s.resetLine <;> cases hp : s.ports.get a <;> simp [hp]
    | assertReset => simp
    | releaseReset => cases hl : s.resetLine <;> simp

/-- A step that answers a next state: the configuration is well formed, and either an input was taken that performs
nothing, or a pending request was performed. -/
theorem step_next {s t : State} (h : step s = .next t) :
    s.cfg.failure = none ∧
      ((s.fetch = (t, none)) ∨ ∃ u w, s.fetch = (u, some w) ∧ performWord w u = .next t) := by
  unfold step at h
  cases hf : s.cfg.failure with
  | some k => rw [hf] at h; cases h
  | none =>
    rw [hf] at h
    refine ⟨rfl, ?_⟩
    rcases hu : s.fetch with ⟨u, _ | w⟩ <;> rw [hu] at h
    · cases h; exact .inl rfl
    · exact .inr ⟨u, w, rfl, h⟩

/-- A request word is performed as the instruction it decodes to, or answered `ERR_DECODE`. -/
theorem performWord_cases (w : Word) (s : State) :
    (∃ i, decode w = .ok i ∧ performWord w s = exec i s) ∨
      (∃ e, decode w = .error e ∧ performWord w s = .next (s.respond .errDecode 0)) := by
  unfold performWord
  cases h : decode w with
  | ok i => exact .inl ⟨i, rfl, rfl⟩
  | error e => exact .inr ⟨e, rfl, rfl⟩

end Sys2Proof.Machine
end

