-- ==== Sys2Proof/Laws/Exec.lean ====
section
/-! SUPPORT. What `exec` can do, said once, and what the scan, APPEND and the response builder leave as they were. -/

namespace Sys2Proof.Machine

/-- SEND's header writes `buf` only, and keeps its canonical form. -/
theorem State.writeHeader_eq (s : State) (p : Nat) : s.writeHeader p = { s with buf := (s.writeHeader p).buf } := by
  unfold State.writeHeader
  split_ifs <;> rfl

theorem State.writeHeader_wf (s : State) (p : Nat) (h : s.buf.wf = true) : (s.writeHeader p).buf.wf = true := by
  have h1 := Memory.wf_write h 1 (BitVec.ofNat 8 (p + 1))
  unfold State.writeHeader
  split_ifs
  · exact h1
  · exact Memory.wf_write h1 0 (markReply ((s.setByte 1 (BitVec.ofNat 8 (p + 1))).byte 0))

/-- SEND's building of the frame writes `buf` only, and keeps its canonical form. -/
theorem State.buildResponse_eq (s : State) (p : Nat) :
    s.buildResponse p = { s with buf := (s.buildResponse p).buf } := by
  rw [State.buildResponse, State.writeHeader_eq]
  rfl

theorem State.buildResponse_wf (s : State) (p : Nat) (h : s.buf.wf = true) : (s.buildResponse p).buf.wf = true :=
  Memory.wf_write (s.writeHeader_wf p h) _ _

/-- The state after APPEND's recording of the byte, before its answer. -/
def State.appended (s : State) (b : Byte) : State :=
  { s.emptyIfFull.setByte s.emptyIfFull.len.toNat b with len := s.emptyIfFull.len + 1 }

/-- APPEND's recording writes `buf`, `len` and the trace only. -/
theorem State.appended_eq (s : State) (b : Byte) :
    s.appended b =
      { s with
        buf := s.buf.write (if s.len.toNat = 255 then 0 else s.len.toNat) b
        len := if s.len.toNat = 255 then 1 else s.len + 1
        trace := if s.len.toNat = 255 then s.trace ++ [.framing .overflow] else s.trace } := by
  unfold State.appended State.emptyIfFull
  by_cases h : s.len.toNat = 255
  · simp [h, Config.capacity, State.setByte]
  · simp [h, Config.capacity, State.setByte]

/-- The state after SEND's building and transmission, before its answer. -/
def State.sent (s : State) (p : Nat) : State :=
  { (s.buildResponse p).emitTx ((s.buildResponse p).bytes (p + Config.overhead)) with
    first := firstAfterSend s.cfg s.first }

/-- What an instruction that answers a next state did. -/
inductive ExecDid : Instr → State → State → Prop where
  /-- held: APPEND or PROCESS in DISPATCH -/
  | held {i : Instr} {s : State} (h : s.phase = .dispatch) (hi : (∃ b, i = .append b) ∨ i = .process) : ExecDid i s s
  /-- an answer and nothing else: a read, or an error -/
  | answered {i : Instr} {s : State} (st : Status) (d : Word) (hd : st ≠ .ok → d = 0) (h1 : ∀ b, i ≠ .append b)
      (h2 : i ≠ .process) (h3 : s.phase = .dispatch → ∀ x, i ≠ .hdone x) : ExecDid i s (s.respond st d)
  | append {b : Byte} {s : State} (h : s.phase = .idle) : ExecDid (.append b) s ((s.appended b).respond .ok 0)
  | process {s : State} (h : s.phase = .idle) : ExecDid .process s ((s.count .attempts).scan s.len.toNat)
  | bufWr {i d : Byte} {s : State} (h : s.phase = .dispatch) (hi : i.toNat ≤ 254) :
      ExecDid (.bufWr i d) s ((s.setByte i.toNat d).respond .ok 0)
  | send {p : Byte} {s : State} (h : s.phase = .dispatch) (hp : p.toNat ≤ 252) :
      ExecDid (.send p) s ((s.sent p.toNat).respond .ok 0)
  | hdone {x : Byte} {s : State} (h : s.phase = .dispatch) : ExecDid (.hdone x) s s.dispatchReturn

/-- Whatever `exec` answers as a next state, it did one of these. -/
theorem exec_did {i : Instr} {s t : State} (h : exec i s = .next t) : ExecDid i s t := by
  cases i with
  | append b =>
    rcases whenIdle_next h with ⟨hp, h⟩ | ⟨hp, rfl⟩
    · cases h; exact .append hp
    · exact .held hp (.inl ⟨b, rfl⟩)
  | process =>
    rcases whenIdle_next h with ⟨hp, h⟩ | ⟨hp, rfl⟩
    · cases h; exact .process hp
    · exact .held hp (.inr rfl)
  | bufRd x =>
    rcases whenDispatch_next h with ⟨hp, h⟩ | ⟨hp, rfl⟩
    · rcases whenInRange_next h with ⟨hl, h⟩ | ⟨hl, rfl⟩
      · cases h; exact .answered _ _ (by simp) (by simp) (by simp) (by simp)
      · exact .answered _ _ (by simp) (by simp) (by simp) (by simp)
    · exact .answered _ _ (by simp) (by simp) (by simp) (by simp)
  | bufWr x d =>
    rcases whenDispatch_next h with ⟨hp, h⟩ | ⟨hp, rfl⟩
    · rcases whenInRange_next h with ⟨hl, h⟩ | ⟨hl, rfl⟩
      · cases h; exact .bufWr hp (of_decide_eq_true hl)
      · exact .answered _ _ (by simp) (by simp) (by simp) (by simp)
    · exact .answered _ _ (by simp) (by simp) (by simp) (by simp)
  | send p =>
    rcases whenDispatch_next h with ⟨hp, h⟩ | ⟨hp, rfl⟩
    · rcases whenInRange_next h with ⟨hl, h⟩ | ⟨hl, rfl⟩
      · cases h; exact .send hp (of_decide_eq_true hl)
      · exact .answered _ _ (by simp) (by simp) (by simp) (by simp)
    · exact .answered _ _ (by simp) (by simp) (by simp) (by simp)
  | hdone x =>
    rcases whenDispatch_next h with ⟨hp, h⟩ | ⟨hp, rfl⟩
    · cases h; exact .hdone hp
    · exact .answered _ _ (by simp) (by simp) (by simp) (by simp [hp])
  | cntRd k =>
    simp only [exec, execCntRd] at h
    split at h <;> cases h <;> exact .answered _ _ (by simp) (by simp) (by simp) (by simp)
  | dcntRd e =>
    rcases whenInRange_next h with ⟨hl, h⟩ | ⟨hl, rfl⟩
    · cases h; exact .answered _ _ (by simp) (by simp) (by simp) (by simp)
    · exact .answered _ _ (by simp) (by simp) (by simp) (by simp)
  | statRd => cases h; exact .answered _ _ (by simp) (by simp) (by simp) (by simp)

/-- Every instruction answers a next state, in every state: nothing in the FSV faults (R200). -/
theorem exec_total (i : Instr) (s : State) : ∃ t, exec i s = .next t := by
  cases hp : s.phase <;> cases i <;>
    simp [exec, execAppend, execProcess, execBufRd, execBufWr, execSend, execHdone, execCntRd, execDcntRd, execStatRd, hp,
      whenInRange] <;> split <;> simp

/-- What a chain of trips leaves as it was. -/
theorem ScanTrip.star_frame {s u : State} (h : Relation.ReflTransGen ScanTrip s u) :
    u = { s with buf := u.buf, len := u.len, cnt := u.cnt, trace := u.trace } ∧
      u.len.toNat ≤ s.len.toNat ∧ u.cnt.attempts = s.cnt.attempts ∧ u.cnt.hInvoked = s.cnt.hInvoked ∧
      u.cnt.hDone = s.cnt.hDone ∧ u.cnt.notFull = s.cnt.notFull ∧ u.cnt.nonemptyAfter = s.cnt.nonemptyAfter ∧
      (s.buf.wf = true → u.buf.wf = true) ∧
      ∀ j, (s.buf.read j).isSome = true → (u.buf.read j).isSome = true := by
  induction h with
  | refl => exact ⟨rfl, le_refl _, rfl, rfl, rfl, rfl, rfl, id, fun _ => id⟩
  | @tail v w _ hvw ih =>
    obtain ⟨h1, h2, h3, h4, h5, h6, h7, h8, h9⟩ := ih
    have hl := hvw.len
    have hbuf : (v.buf.wf = true → w.buf.wf = true) ∧
        ∀ j, (v.buf.read j).isSome = true → (w.buf.read j).isSome = true := by
      cases hvw with
      | syncFail => exact ⟨State.discard_wf v _, State.discard_written v _⟩
      | badId => exact ⟨State.discard_wf (v.count .badId) _, State.discard_written (v.count .badId) _⟩
      | badSize => exact ⟨State.discard_wf (v.count .badSize) _, State.discard_written (v.count .badSize) _⟩
      | badCs => exact ⟨State.discard_wf (v.count .badCs) _, State.discard_written (v.count .badCs) _⟩
    obtain ⟨r, hr, hw, -⟩ := hvw.frame
    have hc : w.cnt = v.cnt.afterDiscard r := by rw [hw]
    refine ⟨by rw [hw, h1], by omega, ?_, ?_, ?_, ?_, ?_, fun h => hbuf.1 (h8 h), fun j h => hbuf.2 j (h9 j h)⟩
    · rw [hc, ← h3]; cases r <;> rfl
    · rw [hc, ← h4]; cases r <;> rfl
    · rw [hc, ← h5]; cases r <;> rfl
    · rw [hc, ← h6]; cases r <;> rfl
    · rw [hc, ← h7]; cases r <;> rfl

/-- The whole of a scan: a chain of trips to some state `u`, then one of the three ends on it. -/
theorem State.scan_frame (s : State) :
    ∃ u, Relation.ReflTransGen ScanTrip s u ∧
      ((u.verdict = .insufficient ∧ s.scan s.len.toNat = u.stopInsufficient) ∨
        (u.verdict = .notFull ∧ s.scan s.len.toNat = u.stopNotFull) ∨
        ∃ e size, u.verdict = .valid e size ∧ s.scan s.len.toNat = u.dispatchEntry e size) := by
  obtain ⟨u, h1, h2⟩ := State.scan_spec (le_refl s.len.toNat)
  refine ⟨u, h1, ?_⟩
  generalize s.scan s.len.toNat = t at h2
  cases h2 with
  | insufficient h => exact .inl ⟨h, rfl⟩
  | notFull h => exact .inr (.inl ⟨h, rfl⟩)
  | @valid e size h => exact .inr (.inr ⟨e, size, h, rfl⟩)

end Sys2Proof.Machine
end

