-- ==== Sys2Proof/Laws/Fairness.lean ====
section
/-! SUPPORT. What a step does to a pending request and to the reset line, said once, for runs and their fairness. -/

namespace Sys2Proof.Machine

section
variable (s : State) (more : List Input)

@[simp] theorem State.given_cfg : (s.given more).cfg = s.cfg := rfl
@[simp] theorem State.given_buf : (s.given more).buf = s.buf := rfl
@[simp] theorem State.given_len : (s.given more).len = s.len := rfl
@[simp] theorem State.given_first : (s.given more).first = s.first := rfl
@[simp] theorem State.given_phase : (s.given more).phase = s.phase := rfl
@[simp] theorem State.given_curE : (s.given more).curE = s.curE := rfl
@[simp] theorem State.given_curSize : (s.given more).curSize = s.curSize := rfl
@[simp] theorem State.given_cnt : (s.given more).cnt = s.cnt := rfl
@[simp] theorem State.given_dcnt : (s.given more).dcnt = s.dcnt := rfl
@[simp] theorem State.given_ports : (s.given more).ports = s.ports := rfl
@[simp] theorem State.given_outstanding : (s.given more).outstanding = s.outstanding := rfl
@[simp] theorem State.given_resetLine : (s.given more).resetLine = s.resetLine := rfl
@[simp] theorem State.given_session : (s.given more).session = s.session := rfl
@[simp] theorem State.given_turn : (s.given more).turn = s.turn := rfl
@[simp] theorem State.given_inputs : (s.given more).inputs = s.inputs ++ more := rfl
@[simp] theorem State.given_responses : (s.given more).responses = s.responses := rfl
@[simp] theorem State.given_tx : (s.given more).tx = s.tx := rfl
@[simp] theorem State.given_trace : (s.given more).trace = s.trace := rfl
@[simp] theorem State.given_accepts (w : Word) : (s.given more).accepts w = s.accepts w := rfl
@[simp] theorem State.given_nil : s.given [] = s := by simp [State.given]

end

theorem State.accepts_eq_true {s : State} {w : Word} :
    s.accepts w = true ↔ s.resetLine = false ∧ (waitsForIdle w = true → s.phase = .idle) := by
  unfold State.accepts
  cases s.resetLine <;> cases s.phase <;> cases waitsForIdle w <;> simp

/-- An APPEND or PROCESS waits for IDLE, and no other instruction does. -/
theorem waitsForIdle_eq_true {w : Word} {i : Instr} (h : decode w = .ok i) :
    waitsForIdle w = true ↔ (∃ b, i = .append b) ∨ i = .process := by
  unfold waitsForIdle
  rw [h]
  cases i <;> simp

/-- What an instruction does to the ports and the inputs: it frees the port of the agent being served, or it was held and
changed nothing. -/
theorem exec_ports {i : Instr} {s t : State} (h : exec i s = .next t) :
    t.inputs = s.inputs ∧ t.resetLine = s.resetLine ∧
      ((t = s ∧ s.phase = .dispatch ∧ ((∃ b, i = .append b) ∨ i = .process)) ∨
        (t.ports = s.ports.set s.turn none ∧ (((∃ b, i = .append b) ∨ i = .process) → s.phase = .idle))) := by
  cases exec_did h with
  | held hp hi => exact ⟨rfl, rfl, .inl ⟨rfl, hp, hi⟩⟩
  | answered _ _ _ h1 h2 _ =>
    exact ⟨rfl, rfl, .inr ⟨rfl, by rintro (⟨b, hb⟩ | hb); exacts [absurd hb (h1 b), absurd hb h2]⟩⟩
  | append hp => rw [State.appended_eq]; exact ⟨rfl, rfl, .inr ⟨rfl, fun _ => hp⟩⟩
  | process hp =>
    obtain ⟨u, htrips, hend⟩ := State.scan_frame (s.count .attempts)
    have hu := (ScanTrip.star_frame htrips).1
    rw [show s.len.toNat = (s.count .attempts).len.toNat from rfl]
    rcases hend with ⟨-, he⟩ | ⟨-, he⟩ | ⟨e, z, -, he⟩ <;> rw [he, hu] <;>
      exact ⟨rfl, rfl, .inr ⟨rfl, fun _ => hp⟩⟩
  | bufWr => exact ⟨rfl, rfl, .inr ⟨rfl, by simp⟩⟩
  | send =>
    unfold State.sent
    rw [State.buildResponse_eq]
    exact ⟨rfl, rfl, .inr ⟨rfl, by simp⟩⟩
  | hdone => rw [State.dispatchReturn_eq]; exact ⟨rfl, rfl, .inr ⟨rfl, by simp⟩⟩

/-- Performing a word: it frees the port of the agent being served if the FSV accepts the word, and else changes nothing. -/
theorem performWord_ports {w : Word} {s t : State} (hl : s.resetLine = false) (h : performWord w s = .next t) :
    t.inputs = s.inputs ∧ t.resetLine = s.resetLine ∧
      if s.accepts w = true then t.ports = s.ports.set s.turn none else t = s := by
  rcases performWord_cases w s with ⟨i, hd, hp⟩ | ⟨e, hd, hp⟩ <;> rw [hp] at h
  · obtain ⟨hi, hr, hc⟩ := exec_ports h
    refine ⟨hi, hr, ?_⟩
    have hw := waitsForIdle_eq_true hd
    rcases hc with ⟨rfl, hph, hk⟩ | ⟨hports, hidle⟩
    · rw [if_neg (by rw [State.accepts_eq_true, hph]; simp [hw.2 hk])]
    · rw [if_pos (State.accepts_eq_true.2 ⟨hl, fun hk => hidle (hw.1 hk)⟩), hports]
  · cases h
    have hw : waitsForIdle w = false := by unfold waitsForIdle; rw [hd]
    exact ⟨rfl, rfl, by rw [if_pos (State.accepts_eq_true.2 ⟨hl, by simp [hw]⟩)]; rfl⟩

/-- With a well-formed configuration every step answers a next state. -/
theorem step_total {s : State} (h : s.cfg.failure = none) : ∃ t, step s = .next t := by
  unfold step
  rw [h]
  rcases s.fetch with ⟨u, _ | w⟩
  · exact ⟨u, rfl⟩
  · rcases performWord_cases w u with ⟨i, -, hp⟩ | ⟨e, -, hp⟩
    · obtain ⟨t, ht⟩ := exec_total i u
      exact ⟨t, hp.trans ht⟩
    · exact ⟨_, hp⟩

end Sys2Proof.Machine
end

