-- ==== Sys2Proof/Laws/PerInstr.lean ====
section
/-! SUPPORT. A statement of every instruction, one lemma for each: its word lies on its own row of the opcode table. -/

namespace Sys2Proof.Laws.WordOnRow

/-- The index of an instruction's row in the opcode table (R92). -/
def rowOf : Instr → Nat
  | .append _ => 0
  | .process => 1
  | .bufRd _ => 2
  | .bufWr _ _ => 3
  | .send _ => 4
  | .hdone _ => 5
  | .cntRd _ => 6
  | .dcntRd _ => 7
  | .statRd => 8

/-- The word of `i` meets the match and mask of the row of `i`. -/
def Statement (i : Instr) : Prop := ∃ r, opcodeRows[rowOf i]? = some r ∧ r.selects (encode i) = true

theorem append (b : Byte) : Statement (.append b) := by
  refine ⟨_, rfl, ?_⟩; revert b; decide
theorem process : Statement .process := ⟨_, rfl, by decide⟩
theorem bufRd (i : Byte) : Statement (.bufRd i) := by
  refine ⟨_, rfl, ?_⟩; revert i; decide
theorem bufWr (i d : Byte) : Statement (.bufWr i d) := by
  refine ⟨_, rfl, ?_⟩
  simp only [OpcodeRow.selects, encode, requestWord, beq_iff_eq]
  apply BitVec.eq_of_getLsbD_eq
  intro j hj
  rw [BitVec.getLsbD_and, BitVec.getLsbD_append, BitVec.getLsbD_append]
  interval_cases j <;> simp
theorem send (p : Byte) : Statement (.send p) := by
  refine ⟨_, rfl, ?_⟩; revert p; decide
theorem hdone (s : Byte) : Statement (.hdone s) := by
  refine ⟨_, rfl, ?_⟩; revert s; decide
theorem cntRd (k : Byte) : Statement (.cntRd k) := by
  refine ⟨_, rfl, ?_⟩; revert k; decide
theorem dcntRd (e : Byte) : Statement (.dcntRd e) := by
  refine ⟨_, rfl, ?_⟩; revert e; decide
theorem statRd : Statement .statRd := ⟨_, rfl, by decide⟩

end Sys2Proof.Laws.WordOnRow
end

