-- ==== Sys2Proof/Laws/Sync.lean ====
section
/-! SUPPORT. `SyncPred` leaves no synchronizer out: every total function on buffered sequences is one of its formulas. -/

namespace Sys2Proof

open Machine

/-- The formula true of exactly the sequences whose bytes from index `k` on are `bs`, if the rest is so. -/
def SyncPred.bytesFrom : Nat → List Byte → SyncPred
  | _, [] => .always
  | k, b :: bs => .both (.byteIs k b) (SyncPred.bytesFrom (k + 1) bs)

/-- The formula true of one sequence only. -/
def SyncPred.exactly (bs : List Byte) : SyncPred := .both (.lengthIs bs.length) (SyncPred.bytesFrom 0 bs)

/-- The formula true of the listed sequences only. -/
def SyncPred.oneOf : List (List Byte) → SyncPred
  | [] => .neg .always
  | bs :: r => .neg (.both (.neg (SyncPred.exactly bs)) (.neg (SyncPred.oneOf r)))

theorem SyncPred.holds_bytesFrom (k : Nat) (bs cs : List Byte) :
    syncHolds (SyncPred.bytesFrom k bs) cs = true ↔ ∀ i (h : i < bs.length), cs[k + i]? = some bs[i] := by
  induction bs generalizing k with
  | nil => simp [SyncPred.bytesFrom, syncHolds]
  | cons b bs ih =>
    simp only [SyncPred.bytesFrom, syncHolds, Bool.and_eq_true, decide_eq_true_eq, ih]
    constructor
    · rintro ⟨h1, h2⟩ i hi
      cases i with
      | zero => simpa using h1
      | succ i => simpa [Nat.add_assoc, Nat.add_comm 1] using h2 i (by simpa using hi)
    · intro h
      refine ⟨h 0 (by simp), fun i hi => ?_⟩
      have := h (i + 1) (by simpa using hi)
      rwa [← Nat.add_assoc, Nat.add_right_comm] at this

theorem SyncPred.holds_exactly (bs cs : List Byte) : syncHolds (SyncPred.exactly bs) cs = true ↔ cs = bs := by
  simp only [SyncPred.exactly, syncHolds, Bool.and_eq_true, decide_eq_true_eq, SyncPred.holds_bytesFrom, zero_add]
  constructor
  · rintro ⟨h1, h2⟩
    apply List.ext_getElem h1
    intro i hi hi'
    have := h2 i hi'
    rwa [List.getElem?_eq_getElem hi, Option.some_inj] at this
  · rintro rfl
    exact ⟨rfl, fun i h => List.getElem?_eq_getElem h⟩

theorem SyncPred.holds_oneOf (l : List (List Byte)) (cs : List Byte) :
    syncHolds (SyncPred.oneOf l) cs = true ↔ cs ∈ l := by
  induction l with
  | nil => simp [SyncPred.oneOf, syncHolds]
  | cons bs r ih =>
    have h := SyncPred.holds_exactly bs cs
    simp only [SyncPred.oneOf, syncHolds, List.mem_cons, ← h, ← ih]
    cases syncHolds (SyncPred.exactly bs) cs <;> cases syncHolds (SyncPred.oneOf r) cs <;> simp

/-- Every total function from sequences of at most 255 bytes to Bool is a `SyncPred` (R11). -/
theorem SyncPred.complete (f : List Byte → Bool) :
    ∃ p : SyncPred, ∀ bs : List Byte, bs.length ≤ 255 → syncHolds p bs = f bs := by
  have hfin := List.finite_length_le Byte 255
  refine ⟨SyncPred.oneOf (hfin.toFinset.toList.filter fun bs => f bs), fun bs hbs => ?_⟩
  have h := SyncPred.holds_oneOf (hfin.toFinset.toList.filter fun bs => f bs) bs
  have hm : bs ∈ hfin.toFinset.toList := by simpa using hbs
  rw [List.mem_filter] at h
  cases hf : f bs
  · rw [← Bool.not_eq_true, h, hf]; simp
  · exact h.2 ⟨hm, hf⟩

end Sys2Proof
end

