-- ==== Sys2Proof/Tests/Slice0.lean ====
section
/-! SUPPORT. Small tests: expected values are those of spec/95_test_vectors.md (the vector's name is given) or of the
rule cited, worked out by hand. Then the witnesses: for each statement with hypotheses, a state that meets them. -/

namespace Sys2Proof.Tests

open Sys2Proof Sys2Proof.Machine

/-! ### Helpers -/

/-- The configuration CFG-A. -/
abbrev cfgA : Configuration := exampleConfiguration

/-- The state after reset and one APPEND of each byte: spec/95_test_vectors.md section 0. -/
def start (c : Configuration) (bs : List Byte) : State :=
  { State.resetWith c with buf := (List.range bs.length).zip bs, len := BitVec.ofNat 8 bs.length, turn := .ctl }

/-- The next state, if there is one. -/
def nextOf : Host.Outcome State Fault Refusal → Option State
  | .next t => some t
  | .fault _ => none
  | .refused _ => none

/-- The state after an instruction. -/
def after (i : Instr) (s : State) : State := (nextOf (exec i s)).getD s

/-- The state in which PROCESS has dispatched the frame at the head and the handler has its turn. -/
def inDispatch (c : Configuration) (bs : List Byte) : State := { after .process (start c bs) with turn := .handler }

/-- The last response's status and data. -/
def answer (s : State) : Option (Status × Word) := s.responses.getLast?.map fun r => (r.status, r.data)

/-- The counters in index order. -/
def counters (s : State) : List Counter :=
  [s.cnt.attempts, s.cnt.badId, s.cnt.badSize, s.cnt.badCs, s.cnt.hInvoked, s.cnt.hDone, s.cnt.notFull,
    s.cnt.nonemptyAfter]

/-- The first n bytes written since reset. -/
def written (s : State) (n : Nat) : List (Option Byte) := (List.range n).map s.buf.read

/-! ### Well-formedness: an ill-formed configuration for each check (R12, R11) -/

theorem test_wf_example : cfgA.failure = none := by decide

theorem test_wf_id7bit : ({ table := [⟨0x80, 3, 0⟩] } : Configuration).failure = some .id7bit := by decide

theorem test_wf_sizeMin : ({ table := [⟨0x03, 2, 0⟩] } : Configuration).failure = some .sizeMin := by decide

theorem test_wf_sizeMax : ({ table := [⟨0x03, 256, 0⟩] } : Configuration).failure = some .sizeMax := by decide

theorem test_wf_handlerRange :
    ({ table := [⟨0x03, 3, 2⟩], nHandler := 2 } : Configuration).failure = some .handlerRange := by decide

theorem test_wf_nCmdRange :
    ({ table := List.replicate 257 ⟨0x03, 3, 0⟩ } : Configuration).failure = some .nCmdRange := by
  decide +kernel

theorem test_wf_nHandlerRange :
    ({ table := [], nHandler := 0 } : Configuration).failure = some .nHandlerRange := by decide

/-- A duplicate id breaks the recommended property and no check (R12, R151). -/
theorem test_wf_duplicate_id :
    ({ table := [⟨0x03, 3, 0⟩, ⟨0x03, 5, 1⟩] } : Configuration).failure = none ∧
      ({ table := [⟨0x03, 3, 0⟩, ⟨0x03, 5, 1⟩] } : Configuration).uniqueId = false := by decide

theorem test_step_refuses_ill_formed :
    ∃ k, step (State.resetWith { table := [⟨0x03, 2, 0⟩] }) = .refused (.illFormedConfiguration k) := ⟨.sizeMin, rfl⟩

/-! ### Decoding: words written out from R93's encoding column -/

theorem test_decode_append : decode 0b0001_000000000000_00000000_11111100 = .ok (.append 0xFC) := by decide

theorem test_decode_process : decode 0b0010_000000000000_00000000_00000000 = .ok .process := by decide

theorem test_decode_bufRd : decode 0b0011_000000000000_00000000_11001000 = .ok (.bufRd 200) := by decide

/-- BUF_WR 254, 0x99: the index in bits 15:8, the data in bits 7:0. -/
theorem test_decode_bufWr : decode 0b0100_000000000000_11111110_10011001 = .ok (.bufWr 254 0x99) := by decide

theorem test_decode_send : decode 0b0101_000000000000_00000000_11111100 = .ok (.send 252) := by decide

theorem test_decode_hdone : decode 0b0110_000000000000_00000000_00000111 = .ok (.hdone 7) := by decide

theorem test_decode_cntRd : decode 0b0111_000000000000_00000000_00000101 = .ok (.cntRd 5) := by decide

theorem test_decode_dcntRd : decode 0b1000_000000000000_00000000_00000001 = .ok (.dcntRd 1) := by decide

theorem test_decode_statRd : decode 0b1001_000000000000_00000000_00000000 = .ok .statRd := by decide

/-- ER1 to ER3: reserved operation codes. -/
theorem test_decode_reserved_op :
    [0x00000000, 0xA0000000, 0xF0000000].map decode = List.replicate 3 (.error .reservedOp) := by decide

/-- ER4 to ER6, BF3, DG8, DG9: reserved or unused bits. -/
theorem test_decode_reserved_bits :
    [0x20000001, 0x10010000, 0x10000100, 0x60000100, 0x30000100, 0x40010000, 0x90000001, 0x70000100].map decode =
      List.replicate 8 (.error .reservedBits) := by decide

/-- No word meets two rows: any two differ in a bit that both masks keep (R94). -/
theorem test_rows_disjoint :
    opcodeRows.Pairwise fun r r' => r.pattern &&& (r.mask &&& r'.mask) ≠ r'.pattern &&& (r.mask &&& r'.mask) := by
  decide

theorem test_decodeTableWord : decodeTableWord 32 0x4000FE99 = some (.bufWr 254 0x99) ∧ decodeTableWord 32 1 = none := by
  decide

theorem test_encode : encode (.bufWr 2 0x42) = 0x40000242 ∧ encode (.send 253) = 0x500000FD := by decide

/-! ### Descriptors, checksums, script operations -/

/-- R89: the example table's packed entries. -/
theorem test_descriptor_words : cfgA.table.map packDescriptor = [0x000303, 0x010510] := by decide

theorem test_descriptor_unpack : unpackDescriptor 0x010510 = ⟨0x10, 5, 1⟩ := by decide

/-- CK1 to CK11. -/
theorem test_checksums :
    [[0x03, 0x01], [0x83, 0x01], [0x00, 0x01], [0x80, 0x80], [0xFF, 0xFF], [0x00, 0x00], [0x01, 0xFF], [0x03, 0x03],
      [0x10, 0x03, 0xAA, 0x55], [0x10, 0x03, 0x01, 0x02], [0x10, 0x03, 0x55, 0xAA]].map
        (fun bs : List Byte => (start cfgA bs).checksum bs.length) =
      [0xFC, 0x7C, 0xFF, 0x00, 0x02, 0x00, 0x00, 0xFA, 0xEE, 0xEA, 0xEE] := by decide

/-- Program P3, lines 1 to 5: FRAME 0x10, 0xAA, 0x55. -/
theorem test_script_frame :
    (scriptFrame 0x10 [0xAA, 0x55]).map (fun l => encode l.instr) =
      [0x10000010, 0x10000003, 0x100000AA, 0x10000055, 0x100000EE] := by decide

/-- Program P3, lines 10 to 12: RESPOND 2, 0x55, 0xAA. -/
theorem test_script_respond :
    (scriptRespond [0x55, 0xAA]).map (fun l => encode l.instr) = [0x40000255, 0x400003AA, 0x50000002] := by decide

/-- SN4's first line, in the syntax of R100. -/
theorem test_script_text :
    ScriptLine.text ⟨.handler, .bufWr 2 0x42, some (.ok, some 0)⟩ = "h: BUF_WR 2, 66 -> OK, 0" := by decide

/-! ### Instructions: one step each -/

/-- R110's example. -/
theorem test_append_example :
    written (after (.append 0xFC) (start cfgA [0x03, 0x01])) 3 = [some 0x03, some 0x01, some 0xFC] ∧
      (after (.append 0xFC) (start cfgA [0x03, 0x01])).len = 3 := by decide

/-- AP3, on three of the 255 bytes: the byte goes to index 0, the others stay. -/
theorem test_append_overflow :
    written (after (.append 0x77) { start cfgA [0, 0, 0] with len := 255 }) 3 = [some 0x77, some 0, some 0] ∧
      (after (.append 0x77) { start cfgA [0, 0, 0] with len := 255 }).len = 1 := by decide

/-- PR10: two bad checksums and a bad id in one scan. -/
theorem test_process_bad_checksums :
    counters (after .process (start cfgA [0x10, 0x03, 0x01, 0x02, 0x00])) = [1, 1, 0, 2, 0, 0, 0, 0] ∧
      (after .process (start cfgA [0x10, 0x03, 0x01, 0x02, 0x00])).buffered = [0x02, 0x00] := by decide

/-- PR12: a synchronizer that rejects 0x55 at the head; no counter for it; then the dispatch. -/
theorem test_process_sync :
    counters (after .process (start { cfgA with sync := .neg (.byteIs 0 0x55) } [0x55, 0x03, 0x01, 0xFC])) =
        [1, 0, 0, 0, 1, 0, 0, 0] ∧
      (after .process (start { cfgA with sync := .neg (.byteIs 0 0x55) } [0x55, 0x03, 0x01, 0xFC])).trace =
        [.framing .syncFail, .dispatched 0 0] := by decide

/-- BF4: the payload's first byte. -/
theorem test_bufRd_payload :
    answer (after (.bufRd 2) (inDispatch cfgA [0x10, 0x03, 0xAA, 0x55, 0xEE])) = some (.ok, 0xAA) := by decide

/-- BF2: index 255. -/
theorem test_bufRd_255 :
    answer (after (.bufRd 255) (inDispatch cfgA [0x03, 0x01, 0xFC])) = some (.errRange, 0) := by decide

/-- BF2: index 254, past `len`, which stays. -/
theorem test_bufWr_254 :
    (after (.bufWr 254 0x99) (inDispatch cfgA [0x03, 0x01, 0xFC])).buf.read 254 = some 0x99 ∧
      (after (.bufWr 254 0x99) (inDispatch cfgA [0x03, 0x01, 0xFC])).len = 3 := by decide

/-- BF1: in IDLE. -/
theorem test_bufWr_idle : answer (after (.bufWr 0 0) (start cfgA [])) = some (.errState, 0) := by decide

/-- SN4's frame: the size field and the checksum are written over the old bytes. -/
theorem test_send_one :
    (after (.send 1) (after (.bufWr 2 0x42) (inDispatch cfgA [0x03, 0x01, 0xFC]))).tx = [[0x03, 0x02, 0x42, 0xB9]] := by
  decide

/-- R170's example with `first = 0`: the reply bit, before the checksum. -/
theorem test_send_reply :
    (after (.send 0) { inDispatch cfgA [0x03, 0x01, 0xFC] with first := false }).tx = [[0x83, 0x01, 0x7C]] := by decide

/-- R155's example: trailing bytes dropped and counted, `first` cleared. -/
theorem test_hdone_drops_trailing :
    counters (after (.hdone 0) (inDispatch cfgA [0x03, 0x01, 0xFC, 0x10, 0x20])) = [1, 0, 0, 0, 1, 1, 0, 1] ∧
      statusWord (after (.hdone 0) (inDispatch cfgA [0x03, 0x01, 0xFC, 0x10, 0x20])) = 0 := by decide

/-- TR2, first HDONE: the second frame moves to the head, and the PROCESS is answered `OK, 1`. -/
theorem test_hdone_keeps_trailing :
    (after (.hdone 0) (inDispatch { cfgA with keepTrailing := true } [0x03, 0x01, 0xFC, 0x03, 0x01, 0xFC])).buffered =
        [0x03, 0x01, 0xFC] ∧
      (after (.hdone 0)
        (inDispatch { cfgA with keepTrailing := true } [0x03, 0x01, 0xFC, 0x03, 0x01, 0xFC])).responses =
        [⟨.handler, .ok, 0⟩, ⟨.ctl, .ok, 1⟩] := by decide

/-- DG11: H_INVOKED during a dispatch. -/
theorem test_cntRd_invoked : answer (after (.cntRd 4) (inDispatch cfgA [0x03, 0x01, 0xFC])) = some (.ok, 1) := by decide

/-- DG3. -/
theorem test_cntRd_8 : answer (after (.cntRd 8) (start cfgA [])) = some (.errRange, 0) := by decide

/-- LK2: the lower entry of a duplicated id has the call, and the higher none. -/
theorem test_dcntRd_duplicate :
    answer (after (.dcntRd 1)
      (inDispatch { table := [⟨0x03, 3, 0⟩, ⟨0x03, 5, 1⟩] } [0x03, 0x01, 0xFC])) = some (.ok, 0) := by decide

/-- DG6. -/
theorem test_dcntRd_2 : answer (after (.dcntRd 2) (start cfgA [])) = some (.errRange, 0) := by decide

/-- DG10. -/
theorem test_statRd_dispatch :
    answer (after .statRd (inDispatch cfgA [0x10, 0x03, 0xAA, 0x55, 0xEE])) = some (.ok, 0x05010305) := by decide

/-- DG7. -/
theorem test_statRd_reset : answer (after .statRd State.reset) = some (.ok, 0x00000100) := by decide

/-! ### Steps -/

/-- DG7 as a step: the word placed where `step` takes it up. -/
theorem test_step_statRd :
    (nextOf (step (State.reset.withFetchWord 32 0x90000000))).map State.responses =
      some [⟨.diag, .ok, 0x00000100⟩] := by decide

/-- ER1 as a step. -/
theorem test_step_decode_error :
    (nextOf (step (State.reset.withFetchWord 32 0))).map State.responses = some [⟨.diag, .errDecode, 0⟩] := by decide

/-- AP4: an APPEND issued during a dispatch stays pending on its port, with no answer. -/
theorem test_step_held :
    (nextOf (steps 2
      { inDispatch cfgA [0x03, 0x01, 0xFC] with inputs := [.issue .rx 0x10000011, .perform .rx] })).map
        (fun t => (t.ports.rx, t.len, t.responses)) =
      some (some 0x10000011, 3, []) := by decide

/-- R9: the controller, its PROCESS outstanding, has no second request. -/
theorem test_step_one_outstanding :
    (nextOf (step { inDispatch cfgA [0x03, 0x01, 0xFC] with inputs := [.issue .ctl 0x20000000] })).map
        (fun t => (t.ports.ctl, t.outstanding)) =
      some (none, some .ctl) := by decide

/-- R230: a reset during a dispatch. -/
theorem test_step_reset :
    (nextOf (step { inDispatch cfgA [0x03, 0x01, 0xFC] with inputs := [.assertReset] })).map
        (fun t => (t.phase, t.outstanding, t.responses)) =
      some (.idle, none, []) := by decide

/-! ### Witnesses: states and operands that meet the hypotheses of the statement named, clause by clause -/

/-- CFG-A with `FLAG_CLEAR_MODE = ON_SEND`. -/
abbrev cfgOnSend : Configuration := { cfgA with flagClearMode := .onSend }

/-- CFG-A with `KEEP_TRAILING = true`. -/
abbrev cfgKeep : Configuration := { cfgA with keepTrailing := true }

/-- CFG-A with a synchronizer that rejects 0x55 at the head (PR12). -/
abbrev cfgSync : Configuration := { cfgA with sync := .neg (.byteIs 0 0x55) }

/-- A PING in the buffer. -/
abbrev ping : State := start cfgA [0x03, 0x01, 0xFC]

/-- A PING dispatched. -/
abbrev pinged : State := inDispatch cfgA [0x03, 0x01, 0xFC]

theorem witness_EncodeInvertsDecode : decode 0x4000FE99 = .ok (.bufWr 254 0x99) := by decide

theorem witness_DecodeSelectsTheOneRow :
    (∃ r ∈ opcodeRows, r.selects 0x100000FF = true) ∧ ∀ r ∈ opcodeRows, r.selects 0xA0000000 = false := by decide

/-- One word for each of the five clauses, at the ends of their ranges. -/
theorem witness_ReservedEncodingsAnswerErrDecode :
    (opField 0x00000000).toNat = 0 ∧ 10 ≤ (opField 0xA0000000).toNat ∧ 10 ≤ (opField 0xF0000000).toNat ∧
      (0x10010000 : Word).extractLsb' 16 12 ≠ 0 ∧ (0x48000000 : Word).extractLsb' 16 12 ≠ 0 ∧
      ((opField 0x30000100).toNat ≠ 4 ∧ operandA 0x30000100 ≠ 0) ∧
      ((opField 0x20000001).toNat = 2 ∧ operandB 0x20000001 ≠ 0) ∧
      ((opField 0x90000080).toNat = 9 ∧ operandB 0x90000080 ≠ 0) := by decide

theorem witness_StepPerformsThePendingRequest :
    (State.reset.withFetchWord 32 0x1000005A).cfg.failure = none ∧
      (State.reset.withFetchWord 32 0x1000005A).resetLine = false ∧
      (State.reset.withFetchWord 32 0x1000005A).inputs = .perform .rx :: [] ∧
      (State.reset.withFetchWord 32 0x1000005A).ports.get .rx = some 0x1000005A ∧
      decode 0x1000005A = .ok (.append 0x5A) := by decide

/-- The clauses in order: no input; an issue taken; an issue dropped for reset, for a pending request, for an outstanding
PROCESS; a port with nothing pending. -/
theorem witness_StepWithoutRequest :
    State.reset.inputs = [] ∧
    (let s := { State.reset with inputs := [.issue .rx 0] }
     s.resetLine = false ∧ s.ports.get .rx = none ∧ s.outstanding ≠ some .rx) ∧
    { State.reset with inputs := [.issue .rx 0], resetLine := true }.resetLine = true ∧
    (State.reset.withFetchWord 32 0x1000005A).ports.get .rx ≠ none ∧
    (let s := { pinged with inputs := [.issue .ctl 0x20000000] }
     s.ports.get .ctl = none ∧ s.outstanding = some .ctl) ∧
    (let s := { State.reset with inputs := [.perform .diag] }
     s.inputs = [.perform .diag] ∧ s.ports.get .diag = none) := by decide

theorem witness_ResetGivesEveryPieceItsValue :
    (let s := { pinged with inputs := [.perform .ctl], resetLine := true }
     s.cfg.failure = none ∧ s.resetLine = true ∧ s.inputs = [.perform .ctl]) ∧
    (let s := { pinged with inputs := [.assertReset] }
     s.cfg.failure = none ∧ s.inputs = [.assertReset]) ∧
    (let s := { pinged with inputs := [.releaseReset], resetLine := true }
     s.cfg.failure = none ∧ s.inputs = [.releaseReset] ∧ s.resetLine = true) := by decide

/-- A configuration with every entry at the ends of its ranges and a duplicate id, and one outside each. -/
theorem witness_IllFormedConfigurationIsRefused :
    (let c : Configuration := { table := [⟨0x7F, 3, 0⟩, ⟨0x7F, 255, 1⟩], nHandler := 2 }
     c.table.length ≤ 256 ∧ 1 ≤ c.nHandler ∧ c.nHandler ≤ 256 ∧
      (∀ d ∈ c.table, d.id ≤ 0x7F ∧ 3 ≤ d.size ∧ d.size ≤ 255 ∧ d.handler < c.nHandler) ∧
      c.table[0]? = some ⟨0x7F, 3, 0⟩ ∧ c.table[1]? = some ⟨0x7F, 255, 1⟩) ∧
    ∀ d ∈ ([⟨0x80, 3, 0⟩, ⟨0x7F, 2, 0⟩, ⟨0x7F, 256, 0⟩, ⟨0x7F, 3, 2⟩] : List Descriptor),
      let c : Configuration := { table := [d], nHandler := 2 }
      c.table.length ≤ 256 ∧ 1 ≤ c.nHandler ∧ c.nHandler ≤ 256 ∧
        ∃ d ∈ c.table, ¬(d.id ≤ 0x7F ∧ 3 ≤ d.size ∧ d.size ≤ 255 ∧ d.handler < c.nHandler) := by decide

theorem witness_AfterResetTheFsvIsReady : State.configure cfgA = .next State.reset := rfl

theorem witness_AppendRecordsOneByte :
    (State.reset.phase = .idle ∧ State.reset.len.toNat = 0) ∧
      (let s := { State.reset with len := 254 }; s.phase = .idle ∧ s.len.toNat = 254) ∧
      (let s := { State.reset with len := 255 }; s.phase = .idle ∧ s.len.toNat = 255) := by decide

theorem witness_AppendAndProcessAreHeldInDispatch : pinged.phase = .dispatch := by decide

theorem witness_OverflowLeavesOnlyTheLastByte :
    State.reset.phase = .idle ∧ State.reset.len = 0 ∧ (List.replicate 255 (0 : Byte)).length = 255 :=
  ⟨rfl, rfl, List.length_replicate⟩

theorem witness_ShortBufferStopsTheScan :
    (State.reset.phase = .idle ∧ State.reset.len.toNat ≤ 2) ∧
      (start cfgA [0x03, 0x01]).phase = .idle ∧ (start cfgA [0x03, 0x01]).len.toNat ≤ 2 := by decide

theorem witness_DiscardRemovesTheHeadByte :
    1 ≤ (start cfgA [0xEE]).len.toNat ∧ 1 ≤ { State.reset with len := 255 }.len.toNat := by decide

/-- The clauses in order: IDLE; a rejected head; an unknown id; a wrong size; a wrong checksum on a frame that just fits. -/
theorem witness_FailedHeadIsCountedDiscardedAndRetried :
    ping.phase = .idle ∧
    (let s := start cfgSync [0x55, 0x03, 0x01]
     2 < s.len.toNat ∧ syncHolds s.cfg.sync s.buffered = false) ∧
    (let s := start cfgA [0x83, 0x01, 0x7C]
     2 < s.len.toNat ∧ syncHolds s.cfg.sync s.buffered = true ∧ lookup s.cfg (s.byte 0) = none) ∧
    (let s := start cfgA [0x03, 0xFF, 0x00]
     2 < s.len.toNat ∧ syncHolds s.cfg.sync s.buffered = true ∧ lookup s.cfg (s.byte 0) = some 0 ∧
      s.cfg.table[0]? = some ⟨0x03, 3, 0⟩ ∧ (s.byte 1).toNat + 2 ≠ 3) ∧
    (let s := start cfgA [0x03, 0x01, 0xFD]
     2 < s.len.toNat ∧ syncHolds s.cfg.sync s.buffered = true ∧ lookup s.cfg (s.byte 0) = some 0 ∧
      s.cfg.table[0]? = some ⟨0x03, 3, 0⟩ ∧ (s.byte 1).toNat + 2 = 3 ∧ 3 ≤ s.len.toNat ∧
      s.checksum 2 ≠ s.byte 2) := by decide

/-- PR4: one byte short. -/
theorem witness_IncompleteFrameWaits :
    let s := start cfgA [0x10, 0x03, 0xAA, 0x55]
    s.phase = .idle ∧ 2 < s.len.toNat ∧ syncHolds s.cfg.sync s.buffered = true ∧ lookup s.cfg (s.byte 0) = some 1 ∧
      s.cfg.table[1]? = some ⟨0x10, 5, 1⟩ ∧ (s.byte 1).toNat + 2 = 5 ∧ s.len.toNat < 5 := by decide

theorem witness_ValidFrameIsDispatched :
    ping.cfg.failure = none ∧ ping.phase = .idle ∧ syncHolds ping.cfg.sync ping.buffered = true ∧
      lookup ping.cfg (ping.byte 0) = some 0 ∧ ping.cfg.table[0]? = some ⟨0x03, 3, 0⟩ ∧
      (ping.byte 1).toNat + 2 = 3 ∧ 3 ≤ ping.len.toNat ∧ ping.checksum 2 = ping.byte 2 := by decide

/-- Each of the three ends is met: PR2, PR3, PR13. -/
theorem witness_ProcessEndsInOneOfThreeWays :
    (start cfgA [0x03, 0x01]).phase = .idle ∧ (start cfgA [0x03, 0x01]).verdict = .insufficient ∧
      (start cfgA [0x10, 0x03, 0xAA]).phase = .idle ∧ (start cfgA [0x10, 0x03, 0xAA]).verdict = .notFull ∧
      ping.phase = .idle ∧ ping.verdict = .valid 0 3 := by decide

/-- The first and the last byte, the lowest and the highest bit. -/
theorem witness_SingleBitCorruptionIsRejected :
    ping.verdict = .valid 0 3 ∧ 0 < 3 ∧ 2 < 3 ∧ 0 < 8 ∧ 7 < 8 ∧
      (ping.setByte 0 (ping.byte 0 ^^^ (1#8 <<< 7))).byte 0 = 0x83 ∧
      (ping.setByte 2 (ping.byte 2 ^^^ (1#8 <<< 0))).byte 2 = 0xFD := by decide

/-- The second state has a stale byte at index 3 that the first has not, and another draw. -/
theorem witness_ProcessIgnoresStaleBytes :
    ping.phase = .idle ∧
      { ping.setByte 3 0x42 with session := 5 } =
        { ping with
          buf := { ping.setByte 3 0x42 with session := 5 }.buf
          session := { ping.setByte 3 0x42 with session := 5 }.session } ∧
      (∀ i, i < ping.len.toNat → { ping.setByte 3 0x42 with session := 5 }.byte i = ping.byte i) := by decide

theorem witness_LookupIsTheFirstExactMatch :
    cfgA.failure = none ∧ (0x83 : Byte).msb = true ∧ lookup cfgA 0x10 = some 1 ∧ lookup cfgA 0x83 = none := by decide

/-- With and without trailing bytes, in both modes of each parameter. -/
theorem witness_HdoneCompletesTheDispatch :
    (pinged.phase = .dispatch ∧ pinged.curSize = 3 ∧ pinged.len = 3) ∧
      (let s := inDispatch cfgKeep [0x03, 0x01, 0xFC, 0x10]
       s.phase = .dispatch ∧ s.curSize.toNat < s.len.toNat ∧ s.cfg.keepTrailing = true) ∧
      (let s := inDispatch cfgOnSend [0x03, 0x01, 0xFC, 0x10]
       s.phase = .dispatch ∧ s.curSize.toNat < s.len.toNat ∧ s.cfg.flagClearMode = .onSend) := by decide

theorem witness_HandlerOperationsInIdleAnswerErrState : State.reset.phase = .idle := rfl

theorem witness_IndexOutsideItsSpaceAnswersErrRange :
    pinged.phase = .dispatch ∧ 252 < (253 : Byte).toNat ∧ 252 < (255 : Byte).toNat ∧ 7 < (8 : Byte).toNat ∧
      pinged.cfg.table.length ≤ (2 : Byte).toNat := by decide

/-- The shortest and the longest frame, with `first` set and cleared, in both modes. -/
theorem witness_SendBuildsAndTransmits :
    pinged.phase = .dispatch ∧ (0 : Byte).toNat ≤ 252 ∧ (252 : Byte).toNat ≤ 252 ∧ pinged.first = true ∧
      { pinged with first := false }.phase = .dispatch ∧ (inDispatch cfgOnSend [0x03, 0x01, 0xFC]).phase = .dispatch := by
  decide

theorem witness_SentFrameIsWellFormed :
    pinged.phase = .dispatch ∧ (0 : Byte).toNat ≤ 252 ∧ (252 : Byte).toNat ≤ 252 := by decide

theorem witness_WellFormedFrameIsAccepted :
    let s := start cfgA [0x10, 0x03, 0xAA, 0x55, 0xEE, 0x03]
    s.cfg.failure = none ∧ s.phase = .idle ∧ syncHolds s.cfg.sync s.buffered = true ∧ lookup s.cfg 0x10 = some 1 ∧
      entrySize s.cfg 1 = [0xAA, 0x55].length + 3 ∧ frameBytes 0x10 [0xAA, 0x55] <+: s.buffered := by decide

theorem witness_FedFrameIsDispatchedAtItsLastByte :
    State.reset.cfg.failure = none ∧ State.reset.phase = .idle ∧ State.reset.len = 0 ∧
      State.reset.cfg.sync = .always ∧ lookup State.reset.cfg 0x10 = some 1 ∧
      entrySize State.reset.cfg 1 = [0xAA, 0x55].length + 3 ∧
      [0x10, 0x03, 0xAA, 0x55] ++ [0xEE] = frameBytes 0x10 [0xAA, 0x55] := by decide

theorem witness_BufRdAnswersTheByte :
    pinged.phase = .dispatch ∧ (0 : Byte).toNat ≤ 254 ∧ (254 : Byte).toNat ≤ 254 := by decide

theorem witness_BufWrStoresTheByte :
    pinged.phase = .dispatch ∧ (0 : Byte).toNat ≤ 254 ∧ (254 : Byte).toNat ≤ 254 := by decide

theorem witness_CntRdAnswersTheIndexedCounter :
    (counters pinged)[(0 : Byte).toNat]? = some 1 ∧ (counters pinged)[(7 : Byte).toNat]? = some 0 := by decide

theorem witness_DcntRdAnswersTheCallCounter :
    ((0 : Byte).toNat < pinged.cfg.table.length ∧ pinged.dcnt[(0 : Byte).toNat]? = some 1) ∧
      (1 : Byte).toNat < pinged.cfg.table.length ∧ pinged.dcnt[(1 : Byte).toNat]? = some 0 := by decide

theorem witness_ResetMeetsTheInvariant : State.configure cfgKeep = .next (State.resetWith cfgKeep) := rfl

/-- A state in DISPATCH that meets the invariant, and a step from it: HDONE. -/
theorem witness_EveryStepKeepsTheInvariant :
    (pinged.withFetchWord 32 0x60000000).Inv ∧
      ∃ t, step (pinged.withFetchWord 32 0x60000000) = .next t ∧ t.phase = .idle := by
  refine ⟨⟨by decide, by decide, by decide, fun _ => ⟨⟨0x03, 3, 0⟩, by decide⟩, ⟨by decide, ?_⟩, ?_, by decide, by decide⟩,
    _, rfl, by decide⟩
  · intro a h; cases a <;> revert h <;> decide
  · show ∀ i, i < 3 → _; decide

theorem witness_EveryStepKeepsTheConfiguration :
    ∃ t, step (State.reset.withFetchWord 32 0x1000005A) = .next t ∧ t.len = 1 := ⟨_, rfl, by decide⟩

theorem witness_FirstFlagIsOnlyCleared :
    (∃ t, exec (.hdone 0) pinged = .next t ∧ t.first ≠ pinged.first) ∧
      ∃ t, exec (.send 0) (inDispatch cfgOnSend [0x03, 0x01, 0xFC]) = .next t ∧
        t.first ≠ (inDispatch cfgOnSend [0x03, 0x01, 0xFC]).first :=
  ⟨⟨_, rfl, by decide⟩, _, rfl, by decide⟩

theorem witness_OnlyProcessEntersAndHdoneLeavesDispatch :
    (∃ t, exec .process ping = .next t ∧ t.phase ≠ ping.phase) ∧
      ∃ t, exec (.hdone 0) pinged = .next t ∧ t.phase ≠ pinged.phase :=
  ⟨⟨_, rfl, by decide⟩, _, rfl, by decide⟩

theorem witness_WritersOfLenAndBuffer :
    (∃ t, exec (.append 0x11) ping = .next t ∧ t.len ≠ ping.len) ∧
      (∃ t, exec (.bufWr 2 0x55) pinged = .next t ∧ t.byte 2 ≠ pinged.byte 2) ∧
      ∃ t, exec (.hdone 0) (inDispatch cfgKeep [0x03, 0x01, 0xFC, 0x10]) = .next t ∧
        t.byte 0 ≠ (inDispatch cfgKeep [0x03, 0x01, 0xFC, 0x10]).byte 0 :=
  ⟨⟨_, rfl, by decide⟩, ⟨_, rfl, by decide⟩, _, rfl, by decide⟩

theorem witness_WritersOfTheCounters :
    (∃ t, exec (.append 0x11) ping = .next t ∧ Instr.append 0x11 ≠ .process) ∧
      (∃ t, exec .process pinged = .next t ∧ pinged.phase = .dispatch) ∧
      ∃ t, exec .process ping = .next t ∧ ping.phase = .idle :=
  ⟨⟨_, rfl, by decide⟩, ⟨_, rfl, by decide⟩, _, rfl, by decide⟩

/-- The cases in order: held; dispatching; HDONE in DISPATCH; the last, for a read in DISPATCH, a PROCESS that stays in
IDLE and an HDONE in IDLE. -/
theorem witness_EveryRequestIsAnsweredOnce :
    (∃ t, exec (.append 0x11) pinged = .next t) ∧ (∃ t, exec .process ping = .next t ∧ t.phase = .dispatch) ∧
      (∃ t, exec (.hdone 0) pinged = .next t ∧ t.outstanding = none) ∧ (∃ t, exec .statRd pinged = .next t) ∧
      (∃ t, exec .process State.reset = .next t ∧ t.phase = .idle) ∧ ∃ t, exec (.hdone 0) ping = .next t :=
  ⟨⟨_, rfl⟩, ⟨_, rfl, rfl⟩, ⟨_, rfl, rfl⟩, ⟨_, rfl⟩, ⟨_, rfl, rfl⟩, _, rfl⟩

/-- Equal counters, and the HDONE of a dispatch with trailing bytes, which counts on both. -/
theorem witness_TrailingCountNeverExceedsDispatches :
    let s := (inDispatch cfgA [0x03, 0x01, 0xFC, 0x10]).withFetchWord 32 0x60000000
    s.cnt.hDone ≠ BitVec.allOnes 32 ∧ s.cnt.nonemptyAfter ≤ s.cnt.hDone ∧
      ∃ t, step s = .next t ∧ t.cnt.nonemptyAfter = 1 :=
  ⟨by decide, by decide, _, rfl, by decide⟩

/-- An APPEND pending during a dispatch, taken up twice. -/
theorem witness_StuckHandlerStallsTheFsv :
    let s : State :=
      { pinged with
        ports := { rx := some 0x10000011, ctl := none, handler := none, diag := none }
        inputs := [.perform .rx, .perform .rx] }
    s.phase = .dispatch ∧ s.neverReturns ∧ noReset s.inputs = true ∧ (∃ t, steps 2 s = .next t) ∧
      decode 0x10000011 = .ok (.append 0x11) := by
  refine ⟨by decide, ⟨?_, by simp⟩, by decide, ⟨_, rfl⟩, by decide⟩
  intro a w h
  cases a <;> simp [Ports.get] at h
  subst h; decide

theorem witness_DispatchOutputHoldsSteady :
    ∃ t, exec (.bufWr 0 0x55) pinged = .next t ∧ pinged.phase = .dispatch ∧ t.phase = .dispatch :=
  ⟨_, rfl, by decide, by decide⟩

theorem witness_ErroneousRequestChangesNothing :
    ∃ t, exec (.send 253) pinged = .next t ∧ t.responses = pinged.responses ++ [⟨pinged.turn, .errRange, 0⟩] ∧
      Status.errRange ≠ .ok := ⟨_, rfl, by decide, by decide⟩

theorem witness_OnlySendTransmits : ∃ t, exec (.send 0) pinged = .next t ∧ t.tx ≠ pinged.tx := ⟨_, rfl, by decide⟩

/-- An APPEND on the RX port, taken up in IDLE; the same held in DISPATCH; the same dropped by a reset. -/
theorem witness_PendingRequestStaysUntilPerformedOrReset :
    (let s := State.reset.withFetchWord 32 0x1000005A
     s.performsNext .rx 0x1000005A ∧ ∃ t, step s = .next t ∧ t.ports.get .rx = none) ∧
    (let s := pinged.withFetchWord 32 0x1000005A
     s.ports.get .rx = some 0x1000005A ∧ s.accepts 0x1000005A = false ∧ ∃ t, step s = .next t ∧
      t.ports.get .rx = some 0x1000005A) ∧
    (let s := { State.reset.withFetchWord 32 0x1000005A with inputs := [.assertReset] }
     s.ports.get .rx = some 0x1000005A ∧ s.resetsNext ∧ ∃ t, step s = .next t ∧ t.ports.get .rx = none) :=
  ⟨⟨⟨rfl, rfl, rfl⟩, _, rfl, rfl⟩, ⟨rfl, rfl, _, rfl, rfl⟩, rfl, .inl rfl, _, rfl, rfl⟩

/-- After reset, an APPEND of 0x5A and a STAT_RD are pending. -/
abbrev waiting : State :=
  { State.reset with ports := { rx := some 0x1000005A, ctl := none, handler := none, diag := some 0x90000000 } }

/-- The FSV takes up the APPEND, then the STAT_RD, then nothing more. -/
def fairInputs : Nat → List Input
  | 0 => [.perform .rx]
  | 1 => [.perform .diag]
  | _ + 2 => []

/-- The run of `fairInputs` from `waiting`. -/
def fairStates : Nat → State
  | 0 => waiting
  | 1 => (nextOf (step (waiting.given [.perform .rx]))).getD waiting
  | _ + 2 => (nextOf (steps 2 (waiting.given [.perform .rx, .perform .diag]))).getD waiting

/-- A word that waits for IDLE and one that does not, in a fair run that stays in IDLE. -/
theorem witness_FairRunsPerformWhatThePhaseAccepts :
    isRun fairInputs fairStates ∧ fair fairInputs fairStates ∧ (fairStates 0).resetLine = false ∧
      ((fairStates 0).ports.get .rx = some 0x1000005A ∧ waitsForIdle 0x1000005A = true ∧
        ∀ m, (fairStates (m + 2)).phase = .idle) ∧
      (fairStates 0).ports.get .diag = some 0x90000000 ∧ waitsForIdle 0x90000000 = false := by
  refine ⟨?_, ?_, rfl, ⟨rfl, rfl, fun _ => rfl⟩, rfl, rfl⟩
  · rintro (_ | _ | n) <;> rfl
  · rintro (_ | _ | n) a w h -
    · cases a <;> cases h
      · exact ⟨0, le_refl _, .inl ⟨rfl, rfl, rfl⟩⟩
      · exact ⟨1, by decide, .inl ⟨rfl, rfl, rfl⟩⟩
    · cases a <;> cases h
      exact ⟨1, le_refl _, .inl ⟨rfl, rfl, rfl⟩⟩
    · cases a <;> cases h

theorem witness_EveryStateHasAFairRun : { waiting with inputs := [.assertReset] }.cfg.failure = none := by decide

end Sys2Proof.Tests
end

