-- ==== Sys2Proof/Proofs/Scope.lean ====
section
/-! The statement of spec/00_scope.md: which configurations boot, what refuses the others, and lookup among duplicates. -/

namespace Sys2Proof.Machine

/-! ### Refusal -/

theorem Configuration.passes_eq_false_of_failure {c : Configuration} {k : ConfigCheck} (h : c.failure = some k) :
    c.passes k = false := by
  simpa using List.find?_some h

theorem configure_eq_next {c : Configuration} (h : c.failure = none) :
    State.configure c = .next (State.resetWith c) := by
  rw [State.configure, h]

theorem configure_eq_refused {c : Configuration} {k : ConfigCheck} (h : c.failure = some k) :
    State.configure c = .refused (.illFormedConfiguration k) := by
  rw [State.configure, h]

theorem step_eq_refused {s : State} {k : ConfigCheck} (h : s.cfg.failure = some k) :
    step s = .refused (.illFormedConfiguration k) := by
  rw [step, h]

/-! ### Well-formedness, entry by entry -/

/-- With `N_CMD` and `N_HANDLER` in R11's ranges, only R12's four checks of the entries are left to fail. -/
theorem Configuration.failure_eq_none_iff_entries {c : Configuration} (hcmd : c.nCmd ≤ 256) (hpos : 1 ≤ c.nHandler)
    (hmax : c.nHandler ≤ 256) :
    c.failure = none ↔ ∀ d ∈ c.table, d.id ≤ 0x7F ∧ 3 ≤ d.size ∧ d.size ≤ 255 ∧ d.handler < c.nHandler := by
  constructor
  · intro h d hd
    obtain ⟨e, he⟩ := List.mem_iff_getElem?.1 hd
    obtain ⟨hid, hmin, hsize, hhandler, -⟩ := Configuration.entry_bounds h he
    exact ⟨hid, hmin, hsize, hhandler⟩
  · intro h
    refine Configuration.failure_eq_none.2 fun k => ?_
    cases k with
    | id7bit => exact List.all_eq_true.2 fun d hd => have ⟨hid, _⟩ := h d hd; decide_eq_true hid
    | sizeMin => exact List.all_eq_true.2 fun d hd => have ⟨_, hmin, _⟩ := h d hd; decide_eq_true hmin
    | sizeMax => exact List.all_eq_true.2 fun d hd => have ⟨_, _, hsize, _⟩ := h d hd; decide_eq_true hsize
    | handlerRange => exact List.all_eq_true.2 fun d hd => have ⟨_, _, _, hhandler⟩ := h d hd; decide_eq_true hhandler
    | nCmdRange => exact decide_eq_true hcmd
    | nHandlerRange => exact decide_eq_true ⟨hpos, hmax⟩

/-! ### Lookup among duplicates -/

/-- R151: an entry that bears the id bounds what lookup answers for it. -/
theorem lookup_le_of_getElem? {c : Configuration} {e f : Nat} {d : Descriptor} (hd : c.table[e]? = some d)
    (hf : lookup c d.id = some f) : f ≤ e := by
  obtain ⟨_, -, hfirst⟩ := List.findIdx?_eq_some_iff_getElem.1 hf
  obtain ⟨he, rfl⟩ := List.getElem?_eq_some_iff.1 hd
  by_contra hlt
  exact hfirst e (not_le.1 hlt) (beq_self_eq_true _)

theorem lookup_ne_none_of_getElem? {c : Configuration} {e : Nat} {d : Descriptor} (hd : c.table[e]? = some d) :
    lookup c d.id ≠ none :=
  fun h => lookup_eq_none.1 h d (List.mem_of_getElem? hd) rfl

/-- Settles O9: the entries' checks decide `Configuration.failure`, which `State.configure` and `step` both consult;
lookup is a first-index search, so each duplicate bounds its answer. -/
theorem illFormedConfigurationIsRefused : Obligations.IllFormedConfigurationIsRefused := by
  intro c hcmd hpos hmax
  have hwf := Configuration.failure_eq_none_iff_entries hcmd hpos hmax
  refine ⟨fun h => configure_eq_next (hwf.2 h), ?_, ?_⟩
  · rintro ⟨d, hd, hbad⟩
    obtain ⟨k, hk⟩ := Option.ne_none_iff_exists'.1 fun hnone => hbad (hwf.1 hnone d hd)
    refine ⟨k, Configuration.passes_eq_false_of_failure hk, configure_eq_refused hk, ?_⟩
    rintro s rfl
    exact step_eq_refused hk
  · intro e e' d d' hd hd' hid
    exact ⟨lookup_ne_none_of_getElem? hd, fun f hf =>
      ⟨lookup_le_of_getElem? hd hf, lookup_le_of_getElem? hd' (hid ▸ hf)⟩⟩

end Sys2Proof.Machine
end

