-- ==== Sys2Proof/Proofs/Memory.lean ====
section
/-! The statement of spec/20_memory.md: an index outside its space (R66). First where each index space ends, then what an
operation answers beyond that end. -/

namespace Sys2Proof.Machine

/-! ### Where the index spaces end -/

theorem bufIndexLegal_eq_false {x : Byte} : bufIndexLegal x = false ↔ 254 < x.toNat := by
  rw [bufIndexLegal, decide_eq_false_iff_not, not_le]

theorem sendLengthLegal_eq_false {p : Byte} : sendLengthLegal p = false ↔ 252 < p.toNat := by
  rw [sendLengthLegal, decide_eq_false_iff_not, not_le]

theorem descriptorIndexLegal_eq_false {c : Configuration} {e : Byte} :
    descriptorIndexLegal c e = false ↔ c.table.length ≤ e.toNat := by
  rw [descriptorIndexLegal, decide_eq_false_iff_not, not_lt, Configuration.nCmd]

theorem counterAt_eq_none {k : Byte} : counterAt k = none ↔ 7 < k.toNat := by
  unfold counterAt
  rcases k.toNat with _ | _ | _ | _ | _ | _ | _ | _ | n <;> simp

/-! ### What an operation answers beyond the end -/

section
variable {s : State}

theorem exec_bufRd_outside {x : Byte} (hs : s.phase = .dispatch) (hx : 254 < x.toNat) :
    exec (.bufRd x) s = .next (s.respond .errRange 0) := by
  rw [exec, execBufRd, whenDispatch_dispatch hs, bufIndexLegal_eq_false.2 hx, whenInRange_false]

theorem exec_bufWr_outside {x d : Byte} (hs : s.phase = .dispatch) (hx : 254 < x.toNat) :
    exec (.bufWr x d) s = .next (s.respond .errRange 0) := by
  rw [exec, execBufWr, whenDispatch_dispatch hs, bufIndexLegal_eq_false.2 hx, whenInRange_false]

theorem exec_send_outside {p : Byte} (hs : s.phase = .dispatch) (hp : 252 < p.toNat) :
    exec (.send p) s = .next (s.respond .errRange 0) := by
  rw [exec, execSend, whenDispatch_dispatch hs, sendLengthLegal_eq_false.2 hp, whenInRange_false]

theorem exec_cntRd_outside {k : Byte} (hk : 7 < k.toNat) :
    exec (.cntRd k) s = .next (s.respond .errRange 0) := by
  rw [exec, execCntRd, counterAt_eq_none.2 hk]

theorem exec_dcntRd_outside {e : Byte} (he : s.cfg.table.length ≤ e.toNat) :
    exec (.dcntRd e) s = .next (s.respond .errRange 0) := by
  rw [exec, execDcntRd, descriptorIndexLegal_eq_false.2 he, whenInRange_false]

end

/-- Settles O26: each index space's own lemma gives the answer, and `State.respond` writes nothing but the port and the
responses. -/
theorem indexOutsideItsSpaceAnswersErrRange : Obligations.IndexOutsideItsSpaceAnswersErrRange := by
  rintro i s (⟨hs, rfl | ⟨d, rfl⟩ | ⟨p, rfl, hp⟩⟩ | ⟨k, rfl, hk⟩ | ⟨e, rfl, he⟩)
  · exact exec_bufRd_outside hs (by decide)
  · exact exec_bufWr_outside hs (by decide)
  · exact exec_send_outside hs hp
  · exact exec_cntRd_outside hk
  · exact exec_dcntRd_outside he

end Sys2Proof.Machine
end

