-- ==== Sys2Proof/Proofs/Encoding.lean ====
section
/-! The statements of spec/30_encoding.md: which words the rows of the opcode table select (R91, R94), what a word that no
row selects is answered, and the status word (R98). -/

namespace Sys2Proof

/-! ### What a selecting row says of a word's fields -/

section
variable {r r' : OpcodeRow} {w : Word}

/-- A field that the mask keeps whole is the pattern's. -/
theorem OpcodeRow.extractLsb'_eq_of_selects {start len : Nat} (h : r.selects w = true)
    (hmask : r.mask.extractLsb' start len = BitVec.allOnes len) :
    w.extractLsb' start len = r.pattern.extractLsb' start len := by
  have hand : w &&& r.mask = r.pattern := beq_iff_eq.1 h
  rw [← hand, BitVec.extractLsb'_and, hmask, BitVec.and_allOnes]

/-- Every row's mask keeps the operation code. -/
theorem opField_eq_of_selects (hr : r ∈ opcodeRows) (h : r.selects w = true) : opField w = opField r.pattern := by
  have hmask : ∀ r ∈ opcodeRows, opField r.mask = BitVec.allOnes 4 := by decide
  exact OpcodeRow.extractLsb'_eq_of_selects h (hmask r hr)

theorem opField_bounds_of_selects (hr : r ∈ opcodeRows) (h : r.selects w = true) :
    1 ≤ (opField w).toNat ∧ (opField w).toNat ≤ 9 := by
  have hrows : ∀ r ∈ opcodeRows, 1 ≤ (opField r.pattern).toNat ∧ (opField r.pattern).toNat ≤ 9 := by decide
  rw [opField_eq_of_selects hr h]
  exact hrows r hr

theorem reserved_eq_zero_of_selects (hr : r ∈ opcodeRows) (h : r.selects w = true) : w.extractLsb' 16 12 = 0 := by
  have hrows : ∀ r ∈ opcodeRows,
      r.mask.extractLsb' 16 12 = BitVec.allOnes 12 ∧ r.pattern.extractLsb' 16 12 = 0 := by decide
  obtain ⟨hmask, hzero⟩ := hrows r hr
  exact (OpcodeRow.extractLsb'_eq_of_selects h hmask).trans hzero

/-- Only BUF_WR has an operand A (R93). -/
theorem operandA_eq_zero_of_selects (hr : r ∈ opcodeRows) (h : r.selects w = true) (hop : (opField w).toNat ≠ 4) :
    operandA w = 0 := by
  have hrows : ∀ r ∈ opcodeRows, (opField r.pattern).toNat ≠ 4 →
      operandA r.mask = BitVec.allOnes 8 ∧ operandA r.pattern = 0 := by decide
  obtain ⟨hmask, hzero⟩ := hrows r hr (opField_eq_of_selects hr h ▸ hop)
  exact (OpcodeRow.extractLsb'_eq_of_selects h hmask).trans hzero

/-- PROCESS and STAT_RD have no operand B (R93). -/
theorem operandB_eq_zero_of_selects (hr : r ∈ opcodeRows) (h : r.selects w = true)
    (hop : (opField w).toNat = 2 ∨ (opField w).toNat = 9) : operandB w = 0 := by
  have hrows : ∀ r ∈ opcodeRows, (opField r.pattern).toNat = 2 ∨ (opField r.pattern).toNat = 9 →
      operandB r.mask = BitVec.allOnes 8 ∧ operandB r.pattern = 0 := by decide
  obtain ⟨hmask, hzero⟩ := hrows r hr (opField_eq_of_selects hr h ▸ hop)
  exact (OpcodeRow.extractLsb'_eq_of_selects h hmask).trans hzero

/-! ### The selected row decides -/

/-- R94: at most one row matches, because the operation codes differ. -/
theorem row_eq_of_selects (hr : r ∈ opcodeRows) (hr' : r' ∈ opcodeRows) (h : r.selects w = true)
    (h' : r'.selects w = true) : r = r' := by
  have hnodup : (opcodeRows.map fun r => opField r.pattern).Nodup := by decide
  exact List.inj_on_of_nodup_map hnodup hr hr'
    ((opField_eq_of_selects hr h).symm.trans (opField_eq_of_selects hr' h'))

theorem decode_eq_ok_of_selects (hr : r ∈ opcodeRows) (h : r.selects w = true) : decode w = .ok (r.build w) := by
  have hfind : opcodeRows.find? (fun r => r.selects w) = some r := by
    cases hfirst : opcodeRows.find? (fun r => r.selects w) with
    | none => exact absurd h (List.find?_eq_none.1 hfirst r hr)
    | some r' =>
      have hsel' : r'.selects w = true := List.find?_some (p := (OpcodeRow.selects · w)) hfirst
      rw [row_eq_of_selects hr (List.mem_of_find?_eq_some hfirst) h hsel']
  rw [decode, hfind]

theorem decode_ne_ok_of_forall_not_selects (h : ∀ r ∈ opcodeRows, r.selects w = false) (i : Instr) :
    decode w ≠ .ok i := by
  have hfind : opcodeRows.find? (fun r => r.selects w) = none :=
    List.find?_eq_none.2 fun r hr => Bool.eq_false_iff.1 (h r hr)
  rw [decode, hfind]
  nofun

end

namespace Machine

/-- R94: a word that no row selects is answered `ERR_DECODE`, whatever the state. -/
theorem performWord_of_forall_not_selects {w : Word} (h : ∀ r ∈ opcodeRows, r.selects w = false) (s : State) :
    performWord w s = .next (s.respond .errDecode 0) := by
  rcases performWord_cases w s with ⟨i, hi, -⟩ | ⟨_, -, hw⟩
  · exact absurd hi (decode_ne_ok_of_forall_not_selects h i)
  · exact hw

/-- Settles O3: the rows' operation codes differ, so the row found first is the only one; `State.respond` writes nothing
but the port and the responses. -/
theorem decodeSelectsTheOneRow : Obligations.DecodeSelectsTheOneRow := fun _ =>
  ⟨fun _ hr _ hr' h h' => congrArg OpcodeRow.mnemonic (row_eq_of_selects hr hr' h h'),
    fun _ hr h => decode_eq_ok_of_selects hr h,
    fun h s => performWord_of_forall_not_selects h s⟩

/-- Settles O4: each clause denies one field of what a selecting row says of the word. -/
theorem reservedEncodingsAnswerErrDecode : Obligations.ReservedEncodingsAnswerErrDecode := by
  intro w s hbad
  have hnone : ∀ r ∈ opcodeRows, r.selects w = false := by
    refine fun r hr => Bool.eq_false_iff.2 fun hsel => ?_
    obtain ⟨hmin, hmax⟩ := opField_bounds_of_selects hr hsel
    rcases hbad with hop | hop | hres | ⟨hop, hA⟩ | ⟨hop, hB⟩
    · omega
    · omega
    · exact hres (reserved_eq_zero_of_selects hr hsel)
    · exact hA (operandA_eq_zero_of_selects hr hsel hop)
    · exact hB (operandB_eq_zero_of_selects hr hsel hop)
  exact ⟨hnone, performWord_of_forall_not_selects hnone s⟩

/-! ### The status word, field by field (R98)

Each append is looked through to the part that holds the field. `Nat.reduceAdd` stays off: it would add up the parts' widths,
and an append would no longer show where its parts meet. -/

theorem latchShown_eq (ph : Phase) (v : BitVec 8) : latchShown ph v = if ph = .dispatch then v else 0 := by
  cases ph <;> rfl

theorem phaseBit_eq (ph : Phase) : phaseBit ph = BitVec.ofBool (decide (ph = .dispatch)) := by
  cases ph <;> rfl

section
variable (s : State)

theorem statusWord_len : (statusWord s).extractLsb' 0 8 = s.len := BitVec.extractLsb'_append_eq_right

theorem statusWord_first : (statusWord s).getLsbD 8 = s.first := by
  simp [statusWord, BitVec.getLsbD_append, -BitVec.getLsbD_eq_getElem, -Nat.reduceAdd]

theorem statusWord_phase : (statusWord s).getLsbD 9 = decide (s.phase = .dispatch) := by
  simp [statusWord, phaseBit_eq, BitVec.getLsbD_append, -BitVec.getLsbD_eq_getElem, -Nat.reduceAdd]

theorem statusWord_zeros : (statusWord s).extractLsb' 10 6 = 0 := by
  simp [statusWord, BitVec.extractLsb'_append_eq_of_le, BitVec.extractLsb'_append_eq_of_add_le, -Nat.reduceAdd]

theorem statusWord_curE : (statusWord s).extractLsb' 16 8 = if s.phase = .dispatch then s.curE else 0 := by
  simp [statusWord, latchShown_eq, BitVec.extractLsb'_append_eq_of_le, BitVec.extractLsb'_append_eq_of_add_le,
    -Nat.reduceAdd]

theorem statusWord_curSize : (statusWord s).extractLsb' 24 8 = if s.phase = .dispatch then s.curSize else 0 := by
  simp [statusWord, latchShown_eq, BitVec.extractLsb'_append_eq_of_le, -Nat.reduceAdd]

end

/-- Settles O35: STAT_RD answers `statusWord`, whose fields are read off one by one. -/
theorem statRdAnswersTheStatusWord : Obligations.StatRdAnswersTheStatusWord := fun s =>
  ⟨statusWord s, rfl, statusWord_len s, statusWord_first s, statusWord_phase s, statusWord_zeros s, statusWord_curE s,
    statusWord_curSize s⟩

end Machine
end Sys2Proof
end

section
/-! The statement of spec/40_accumulator.md: a row of APPENDs, and the overflow policy at its 256th byte (R111, R112). First
one APPEND in IDLE, then a row of them, then the filling of the buffer. -/

namespace Sys2Proof.Machine

/-! ### One APPEND -/

/-- The state after an APPEND performed in IDLE: the byte recorded, the request answered `OK`. -/
def State.received (s : State) (b : Byte) : State := (s.appended b).respond .ok 0

theorem exec_append_idle {s : State} (h : s.phase = .idle) (b : Byte) : exec (.append b) s = .next (s.received b) :=
  whenIdle_idle h

/-- The recording's own frame, and the answer. -/
theorem State.received_eq (s : State) (b : Byte) :
    s.received b =
      { s with
        buf := (s.received b).buf
        len := (s.received b).len
        ports := (s.received b).ports
        responses := s.responses ++ [⟨s.turn, .ok, 0⟩]
        trace := (s.received b).trace } := by
  rw [State.received, State.appended_eq]
  rfl

theorem State.received_len (s : State) (b : Byte) :
    (s.received b).len = if s.len.toNat = 255 then 1 else s.len + 1 := by
  rw [State.received, State.appended_eq]
  rfl

/-- R110: below capacity the buffer grows by one. -/
theorem State.received_len_of_lt {s : State} (h : s.len.toNat < 255) (b : Byte) :
    (s.received b).len.toNat = s.len.toNat + 1 := by
  rw [State.received_len, if_neg (Nat.ne_of_lt h)]
  exact BitVec.toNat_add_of_lt (Nat.succ_lt_succ h)

/-- R111: at capacity the buffer is emptied first, so the byte received is the only one in it. -/
theorem State.received_len_of_full {s : State} (h : s.len.toNat = 255) (b : Byte) : (s.received b).len = 1 := by
  rw [State.received_len, if_pos h]

theorem State.received_byte_of_full {s : State} (h : s.len.toNat = 255) (b : Byte) : (s.received b).byte 0 = b := by
  rw [State.received, State.appended_eq, if_pos h]
  exact (State.byte_setByte s (by decide) 0 b).trans (if_pos rfl)

/-! ### A row of APPENDs -/

/-- The state after APPENDs performed one after the other in IDLE. -/
def State.receivedAll (s : State) (bs : List Byte) : State := bs.foldl State.received s

/-- No APPEND leaves IDLE, so none of a row begun in IDLE is held. -/
theorem execAll_append_idle {s : State} (h : s.phase = .idle) (bs : List Byte) :
    execAll (bs.map Instr.append) s = .next (s.receivedAll bs) := by
  induction bs generalizing s with
  | nil => rfl
  | cons b bs ih =>
    have hidle : (s.received b).phase = .idle := by rw [State.received_eq]; exact h
    rw [List.map_cons, execAll, exec_append_idle h]
    exact ih hidle

/-- R112: whatever overflows on the way, a row of APPENDs counts nothing, sends nothing, and answers each byte `OK`. -/
theorem State.receivedAll_eq (s : State) (bs : List Byte) :
    s.receivedAll bs =
      { s with
        buf := (s.receivedAll bs).buf
        len := (s.receivedAll bs).len
        ports := (s.receivedAll bs).ports
        responses := s.responses ++ List.replicate bs.length ⟨s.turn, .ok, 0⟩
        trace := (s.receivedAll bs).trace } := by
  induction bs generalizing s with
  | nil => simp [State.receivedAll]
  | cons b bs ih =>
    have hrow : s.receivedAll (b :: bs) = (s.received b).receivedAll bs := rfl
    rw [hrow, ih, State.received_eq]
    simp [List.replicate_succ]

theorem State.receivedAll_concat (s : State) (bs : List Byte) (b : Byte) :
    s.receivedAll (bs ++ [b]) = (s.receivedAll bs).received b :=
  List.foldl_concat ..

/-- A row that fits is buffered whole. -/
theorem State.receivedAll_len_of_fits {s : State} {bs : List Byte} (h : s.len.toNat + bs.length ≤ 255) :
    (s.receivedAll bs).len.toNat = s.len.toNat + bs.length := by
  induction bs generalizing s with
  | nil => rfl
  | cons b bs ih =>
    rw [List.length_cons] at h ⊢
    have hone : (s.received b).len.toNat = s.len.toNat + 1 := State.received_len_of_lt (by omega) b
    have hrest : ((s.received b).receivedAll bs).len.toNat = (s.received b).len.toNat + bs.length := ih (by omega)
    calc (s.receivedAll (b :: bs)).len.toNat
        = (s.received b).len.toNat + bs.length := hrest
      _ = s.len.toNat + (bs.length + 1) := by omega

/-- Settles O13: the first 255 bytes fill the buffer, so the 256th is received by a full one. -/
theorem overflowLeavesOnlyTheLastByte : Obligations.OverflowLeavesOnlyTheLastByte := by
  intro s bs b hidle hempty hlength
  have hfull : (s.receivedAll bs).len.toNat = 255 := by
    rw [State.receivedAll_len_of_fits] <;> simp [hempty, hlength]
  have hframe := State.receivedAll_eq s (bs ++ [b])
  refine ⟨s.receivedAll (bs ++ [b]), execAll_append_idle hidle _, ?_, ?_, ?_⟩
  · rw [State.receivedAll_concat, State.received_len_of_full hfull]
  · rw [State.receivedAll_concat, State.received_byte_of_full hfull]
  · rw [hframe]
    exact ⟨rfl, rfl, rfl, hidle, rfl, by rw [List.length_append, List.length_singleton]⟩

end Sys2Proof.Machine
end

section
/-! The statements of spec/41_validator.md: DISCARD, the checksum, what each check of the head leads to, the ways a PROCESS
ends, and that no valid frame survives the flip of one bit. -/

namespace Sys2Proof.Machine

/-! ### DISCARD -/

/-- Settles O15: `State.discard` writes `buf`, `len` and the trace, and its loop moves the buffered bytes only. -/
theorem discardRemovesTheHeadByte : Obligations.DiscardRemovesTheHeadByte := by
  intro s r hlen
  refine ⟨?_, State.len_discard s r hlen, State.byte_discard s r⟩
  rw [State.discard_eq]

/-! ### The checksum -/

theorem State.byteSum_eq_sum (s : State) (n : Nat) :
    s.byteSum n = ((List.range n).map fun i => (s.byte i).toNat).sum := by
  induction n with
  | zero => rfl
  | succ n ih => simp [State.byteSum, List.range_succ, ih]

/-- R121: two's-complement negation, on the numbers. -/
theorem State.toNat_checksum (s : State) (n : Nat) : (s.checksum n).toNat = (256 - s.byteSum n % 256) % 256 := by
  have hneg : s.checksum n = -BitVec.ofNat 8 (s.byteSum n) := (BitVec.neg_eq_not_add _).symm
  rw [hneg, BitVec.toNat_neg, BitVec.toNat_ofNat]

/-- R121: a frame whose last byte is its checksum sums to 0 in 8 bits. -/
theorem State.checksum_eq_byte_iff (s : State) (n : Nat) : s.checksum n = s.byte n ↔ s.byteSum (n + 1) % 256 = 0 := by
  have hbyte : (s.byte n).toNat < 256 := (s.byte n).isLt
  rw [← BitVec.toNat_inj, State.toNat_checksum, State.byteSum]
  omega

/-- Settles O22: the model's byte sum is the statement's sum over a list. -/
theorem checksumNegatesTheByteSum : Obligations.ChecksumNegatesTheByteSum := by
  intro s n
  rw [← State.byteSum_eq_sum, ← State.byteSum_eq_sum]
  exact ⟨State.toNat_checksum s n, State.checksum_eq_byte_iff s n⟩

/-! ### The verdict that each check leads to -/

section
variable {s : State} {e : Nat}

theorem State.verdict_eq_insufficient (hlen : s.len.toNat ≤ 2) : s.verdict = .insufficient := if_pos hlen

theorem State.verdict_eq_syncFail (hlen : 2 < s.len.toNat) (hsync : syncHolds s.cfg.sync s.buffered = false) :
    s.verdict = .syncFail := by
  rw [State.verdict_of_two_lt hlen, if_pos hsync]

theorem State.verdict_eq_badId (hlen : 2 < s.len.toNat) (hsync : syncHolds s.cfg.sync s.buffered = true)
    (hid : lookup s.cfg (s.byte 0) = none) : s.verdict = .badId := by
  simp [State.verdict_of_two_lt hlen, hsync, hid]

theorem State.verdict_eq_badSize (hlen : 2 < s.len.toNat) (hsync : syncHolds s.cfg.sync s.buffered = true)
    (hid : lookup s.cfg (s.byte 0) = some e) (hsize : frameSize (s.byte 1) ≠ entrySize s.cfg e) :
    s.verdict = .badSize := by
  simp [State.verdict_of_two_lt hlen, hsync, hid, hsize]

theorem State.verdict_eq_badCs (hlen : 2 < s.len.toNat) (hsync : syncHolds s.cfg.sync s.buffered = true)
    (hid : lookup s.cfg (s.byte 0) = some e) (hsize : frameSize (s.byte 1) = entrySize s.cfg e)
    (hfull : entrySize s.cfg e ≤ s.len.toNat)
    (hcs : s.checksum (entrySize s.cfg e - 1) ≠ s.byte (entrySize s.cfg e - 1)) : s.verdict = .badCs := by
  simp [State.verdict_of_two_lt hlen, hsync, hid, hsize, hfull, hcs]

theorem State.verdict_eq_valid (hlen : 2 < s.len.toNat) (hsync : syncHolds s.cfg.sync s.buffered = true)
    (hid : lookup s.cfg (s.byte 0) = some e) (hsize : frameSize (s.byte 1) = entrySize s.cfg e)
    (hfull : entrySize s.cfg e ≤ s.len.toNat)
    (hcs : s.checksum (entrySize s.cfg e - 1) = s.byte (entrySize s.cfg e - 1)) :
    s.verdict = .valid e (entrySize s.cfg e) := by
  simp [State.verdict_of_two_lt hlen, hsync, hid, hsize, hfull, hcs]

end

/-! ### What a verdict at which the scan stops says of the head -/

section
variable {s : State} {e size : Nat}

theorem State.spec_of_insufficient (h : s.verdict = .insufficient) : s.len.toNat ≤ 2 := by
  simpa only [h] using s.verdict_spec

theorem State.spec_of_notFull (h : s.verdict = .notFull) :
    2 < s.len.toNat ∧ syncHolds s.cfg.sync s.buffered = true ∧
      ∃ e, lookup s.cfg (s.byte 0) = some e ∧ frameSize (s.byte 1) = entrySize s.cfg e ∧
        s.len.toNat < frameSize (s.byte 1) := by
  simpa only [h] using s.verdict_spec

theorem State.spec_of_valid (h : s.verdict = .valid e size) :
    2 < s.len.toNat ∧ syncHolds s.cfg.sync s.buffered = true ∧ lookup s.cfg (s.byte 0) = some e ∧
      frameSize (s.byte 1) = size ∧ entrySize s.cfg e = size ∧ size ≤ s.len.toNat ∧
      s.checksum (size - 1) = s.byte (size - 1) := by
  simpa only [h] using s.verdict_spec

end

/-! ### What the scan does for a verdict -/

section
variable {s t : State}

theorem State.scan_of_insufficient (h : s.verdict = .insufficient) (n : Nat) : s.scan n = s.stopInsufficient := by
  cases n with
  | zero => rfl
  | succ n => rw [State.scan, h]

theorem State.scan_of_valid {e size : Nat} (h : s.verdict = .valid e size) :
    s.scan s.len.toNat = s.dispatchEntry e size := by
  obtain ⟨htwo, -⟩ := State.spec_of_valid h
  obtain ⟨n, hn⟩ := Nat.exists_eq_add_one_of_ne_zero (Nat.ne_zero_of_lt htwo)
  rw [hn, State.scan, h]

/-- R131: a head that fails a check costs one byte and one trip. -/
theorem ScanTrip.scan_eq (h : ScanTrip s t) : s.scan s.len.toNat = t.scan (s.len.toNat - 1) := by
  rw [State.scan_trip h, h.len]

/-- R120: the attempt is counted before the scan; no check reads a counter. -/
theorem exec_process_idle (h : s.phase = .idle) :
    exec .process s = .next ((s.count .attempts).scan (s.count .attempts).len.toNat) := whenIdle_idle h

theorem State.verdict_count (s : State) (k : CounterId) : (s.count k).verdict = s.verdict :=
  State.verdict_congr rfl rfl fun _ _ => rfl

end

/-- Settles O14: the head of a short buffer is not looked at. -/
theorem shortBufferStopsTheScan : Obligations.ShortBufferStopsTheScan := by
  intro s hidle hlen
  have hverdict : (s.count .attempts).verdict = .insufficient := State.verdict_eq_insufficient hlen
  rw [exec_process_idle hidle, State.scan_of_insufficient hverdict]
  rfl

/-- Settles O16: each failed check names the verdict, and with it the trip of the scan. -/
theorem failedHeadIsCountedDiscardedAndRetried : Obligations.FailedHeadIsCountedDiscardedAndRetried := by
  intro s
  refine ⟨exec_process_idle, fun hlen => ⟨fun hsync => ?_, fun hsync => ⟨fun hid => ?_, fun e d hid hd => ?_⟩⟩⟩
  · exact (ScanTrip.syncFail (State.verdict_eq_syncFail hlen hsync)).scan_eq
  · exact (ScanTrip.badId (State.verdict_eq_badId hlen hsync hid)).scan_eq
  · rw [← entrySize_of_getElem? hd]
    refine ⟨fun hsize => ?_, fun hsize hfull hcs => ?_⟩
    · exact (ScanTrip.badSize (State.verdict_eq_badSize hlen hsync hid hsize)).scan_eq
    · exact (ScanTrip.badCs (State.verdict_eq_badCs hlen hsync hid hsize hfull hcs)).scan_eq

/-! ### Dispatch -/

/-- R99: the output driven in DISPATCH, when the latches hold a descriptor's index and its frame size. -/
theorem State.dispatchOutput_of_latches {t : State} {e : Nat} {d : Descriptor} (hphase : t.phase = .dispatch)
    (hd : t.cfg.table[e]? = some d) (he : t.curE.toNat = e) (hsize : t.curSize.toNat = d.size) (hmin : 3 ≤ d.size) :
    t.dispatchOutput =
      some ⟨BitVec.ofNat 8 e, BitVec.ofNat 8 d.handler, d.id, BitVec.ofNat 8 (d.size - 3)⟩ := by
  have hentry : t.cfg.table.getD t.curE.toNat ⟨0, 0, 0⟩ = d := by
    rw [he, List.getD_eq_getElem?_getD, hd, Option.getD_some]
  have hcurE : t.curE = BitVec.ofNat 8 e := by rw [← he, BitVec.ofNat_toNat, BitVec.setWidth_eq]
  have hlen : t.curSize - 3 = BitVec.ofNat 8 (d.size - 3) := by bv_omega
  rw [State.dispatchOutput, hphase]
  simp only [hentry]
  rw [hcurE, hlen]

/-- Settles O18: the verdict is `valid`, which the scan answers by the dispatch entry; a well-formed configuration's
entries and sizes fit the latches. -/
theorem validFrameIsDispatched : Obligations.ValidFrameIsDispatched := by
  intro s e d hwf hidle hsync hid hd hsize hfull hcs
  obtain ⟨-, hmin, hmax, -, he⟩ := Configuration.entry_bounds hwf hd
  have hcurE : (BitVec.ofNat 8 e).toNat = e := Nat.mod_eq_of_lt he
  have hcurSize : (BitVec.ofNat 8 d.size).toNat = d.size := Nat.mod_eq_of_lt (Nat.lt_succ_of_le hmax)
  have hverdict : (s.count .attempts).verdict = .valid e d.size := by
    rw [State.verdict_count]
    rw [← entrySize_of_getElem? hd] at hsize hfull hcs hmin ⊢
    exact State.verdict_eq_valid (by omega) hsync hid hsize hfull hcs
  obtain ⟨d', hd', hid', -⟩ := lookup_eq_some hid
  obtain rfl : d = d' := Option.some.inj (hd.symm.trans hd')
  refine ⟨(s.count .attempts).dispatchEntry e d.size, ?_, rfl, hcurE, hcurSize, hid', ?_⟩
  · rw [exec_process_idle hidle, State.scan_of_valid hverdict]
  · exact State.dispatchOutput_of_latches rfl hd hcurE hcurSize hmin

/-! ### The three ways a PROCESS ends -/

/-- The counters after discards for the reasons `ds` in order. -/
theorem Counters.foldl_afterDiscard (c : Counters) (ds : List FramingEvent) :
    ds.foldl Counters.afterDiscard c =
      { c with
        badId := c.badId + BitVec.ofNat 32 (ds.count .badId)
        badSize := c.badSize + BitVec.ofNat 32 (ds.count .badSize)
        badCs := c.badCs + BitVec.ofNat 32 (ds.count .badCs) } := by
  induction ds generalizing c with
  | nil => simp
  | cons d ds ih =>
    rw [List.foldl_cons, ih]
    cases d <;> simp [Counters.afterDiscard, Counters.inc, BitVec.ofNat_add, BitVec.add_assoc, BitVec.add_comm 1#32]

/-- The reasons of a chain of trips, in order: one byte, one count and one label for each. -/
theorem ScanTrip.star_discards {s u : State} (h : Relation.ReflTransGen ScanTrip s u) :
    ∃ ds : List FramingEvent, (∀ d ∈ ds, d.isDiscard = true) ∧ u.len.toNat + ds.length = s.len.toNat ∧
      u.cnt = ds.foldl Counters.afterDiscard s.cnt ∧ u.trace = s.trace ++ ds.map .framing := by
  induction h with
  | refl => exact ⟨[], by simp⟩
  | @tail v w _ hvw ih =>
    obtain ⟨ds, hds, hlen, hcnt, htrace⟩ := ih
    obtain ⟨r, hr, hw, -⟩ := hvw.frame
    have hwlen := hvw.len
    have htwo := hvw.two_lt
    refine ⟨ds ++ [r], ?_, ?_, ?_, ?_⟩
    · simpa [or_imp, forall_and] using ⟨hds, hr⟩
    · rw [List.length_append, List.length_singleton]; omega
    · rw [hw, List.foldl_concat, ← hcnt]
    · rw [hw, htrace, List.map_append, List.append_assoc]; rfl

/-- R131: no trip is made on two bytes or fewer, so a chain that discards leaves at least two. -/
theorem ScanTrip.star_two_le {s u : State} (h : Relation.ReflTransGen ScanTrip s u) : u = s ∨ 2 ≤ u.len.toNat := by
  rcases h.cases_tail with rfl | ⟨v, -, hvu⟩
  · exact .inl rfl
  · have hlen := hvu.len
    have htwo := hvu.two_lt
    exact .inr (by omega)

/-- What a chain of trips that discards for the reasons `ds`, in order, makes of `s` (R122, R131). -/
structure Discarded (s : State) (ds : List FramingEvent) (u : State) : Prop where
  reasons : ∀ d ∈ ds, d.isDiscard = true
  few : ds.length ≤ s.len.toNat - 2
  len : u.len.toNat = s.len.toNat - ds.length
  byte : ∀ i, u.byte i =
    if i < u.len.toNat then s.byte (i + ds.length)
    else if i < s.len.toNat then s.byte (s.len.toNat - 1)
    else s.byte i
  frame : u = { s with
    buf := u.buf
    len := u.len
    cnt := { s.cnt with
      badId := s.cnt.badId + BitVec.ofNat 32 (ds.count .badId)
      badSize := s.cnt.badSize + BitVec.ofNat 32 (ds.count .badSize)
      badCs := s.cnt.badCs + BitVec.ofNat 32 (ds.count .badCs) }
    trace := s.trace ++ ds.map .framing }

theorem ScanTrip.star_discarded {s u : State} (h : Relation.ReflTransGen ScanTrip s u) : ∃ ds, Discarded s ds u := by
  obtain ⟨ds, hds, hlen, hcnt, htrace⟩ := ScanTrip.star_discards h
  obtain ⟨hframe, -⟩ := ScanTrip.star_frame h
  obtain ⟨-, hbyte⟩ := ScanTrip.star_byte h
  have hshift : s.len.toNat - u.len.toNat = ds.length := by omega
  refine ⟨ds, hds, ?_, by omega, hshift ▸ hbyte, ?_⟩
  · rcases ScanTrip.star_two_le h with rfl | htwo <;> omega
  · rw [← htrace, ← Counters.foldl_afterDiscard, ← hcnt]
    exact hframe

/-- What every end of a scan keeps. -/
theorem ScanEnd.frame {u t : State} (h : ScanEnd u t) :
    t = { u with
      phase := t.phase
      curE := t.curE
      curSize := t.curSize
      cnt := { u.cnt with notFull := t.cnt.notFull, hInvoked := t.cnt.hInvoked }
      dcnt := t.dcnt
      ports := u.ports.set u.turn none
      outstanding := t.outstanding
      responses := t.responses
      trace := t.trace } := by
  cases h <;> rfl

theorem State.checksum_dispatchEntry (u : State) (e size n : Nat) :
    (u.dispatchEntry e size).checksum n = u.checksum n :=
  State.checksum_congr fun _ _ => rfl

/-- Settles O19: the trips account for the discarded bytes and their reasons, the end for every other field. -/
theorem processEndsInOneOfThreeWays : Obligations.ProcessEndsInOneOfThreeWays := by
  intro s hidle
  obtain ⟨u, htrips, hend⟩ := State.scan_spec (le_refl (s.count .attempts).len.toNat)
  have hexec := exec_process_idle hidle
  generalize (s.count .attempts).scan (s.count .attempts).len.toNat = t at hexec hend
  obtain ⟨ds, hdisc⟩ := ScanTrip.star_discarded htrips
  have hfinal := hend.frame
  refine ⟨t, ds, hexec, ?_, hdisc.few, hdisc.reasons, ?_, fun i => ?_, ?_, ?_⟩
  · rw [hfinal, hdisc.frame]; rfl
  · rw [hfinal]; exact hdisc.len
  · rw [hfinal]; exact hdisc.byte i
  · rw [hfinal, hdisc.frame]; rfl
  · rw [hdisc.frame] at hend
    cases hend with
    | insufficient h =>
      have hshort := State.spec_of_insufficient h
      exact .inl ⟨rfl, hshort, hidle, rfl, rfl, rfl, rfl, rfl, rfl, rfl⟩
    | notFull h =>
      obtain ⟨htwo, -, e, hid, hsize, hwait⟩ := State.spec_of_notFull h
      exact .inr (.inl ⟨rfl, htwo, ⟨e, hid, hsize, hsize ▸ hwait⟩, hidle, rfl, rfl, rfl, rfl, rfl, rfl, rfl⟩)
    | @valid e size h =>
      obtain ⟨htwo, -, hid, hsize, rfl, hfull, hcs⟩ := State.spec_of_valid h
      exact .inr (.inr ⟨e, rfl, htwo, hid, hsize, hfull, (State.checksum_dispatchEntry _ _ _ _).trans hcs,
        rfl, rfl, rfl, rfl, rfl, rfl, rfl, rfl⟩)

/-! ### Corruption of one bit -/

theorem Byte.xor_bit_ne (b : Byte) {k : Nat} (hk : k < 8) : b ^^^ (1#8 <<< k) ≠ b := by
  intro h
  have hbit : (b ^^^ (1#8 <<< k)).getLsbD k = b.getLsbD k := by rw [h]
  simp [hk] at hbit

/-- Two buffers that differ at one index have sums that differ by what stands there. -/
theorem State.byteSum_add_of_eq_off {s t : State} {j : Nat} (h : ∀ i, i ≠ j → t.byte i = s.byte i) {n : Nat}
    (hj : j < n) : t.byteSum n + (s.byte j).toNat = s.byteSum n + (t.byte j).toNat := by
  induction n with
  | zero => omega
  | succ n ih =>
    simp only [State.byteSum]
    rcases Nat.lt_succ_iff_lt_or_eq.1 hj with hlt | rfl
    · have hrest := ih hlt
      have hlast := h n (Nat.ne_of_gt hlt)
      rw [hlast]
      omega
    · have hbelow : t.byteSum j = s.byteSum j := State.byteSum_congr fun i hi => h i (Nat.ne_of_lt hi)
      rw [hbelow]
      omega

/-- A right checksum does not survive a change of one byte it covers, itself included. -/
theorem State.checksum_ne_byte_of_eq_off {s t : State} {j n : Nat} (h : ∀ i, i ≠ j → t.byte i = s.byte i)
    (hne : t.byte j ≠ s.byte j) (hj : j < n + 1) (hcs : s.checksum n = s.byte n) : t.checksum n ≠ t.byte n := by
  intro hcs'
  rw [State.checksum_eq_byte_iff] at hcs hcs'
  have hsum := State.byteSum_add_of_eq_off h hj
  have hs : (s.byte j).toNat < 256 := (s.byte j).isLt
  have ht : (t.byte j).toNat < 256 := (t.byte j).isLt
  exact hne (BitVec.eq_of_toNat_eq (by omega))

theorem frameSize_injective {f f' : Byte} (h : frameSize f = frameSize f') : f = f' :=
  BitVec.eq_of_toNat_eq (Nat.add_right_cancel h)

/-- R133: with one byte of a valid frame changed, the head fails a check, and the first that it fails is named. A size
field that still fits its id is the old one: had it changed, the id and so the registered size would be the old ones. -/
theorem State.verdict_of_corrupted {s t : State} {e size j : Nat} (hvalid : s.verdict = .valid e size) (hj : j < size)
    (hcfg : t.cfg = s.cfg) (hlen : t.len = s.len) (h : ∀ i, i ≠ j → t.byte i = s.byte i)
    (hne : t.byte j ≠ s.byte j) :
    t.verdict =
      if syncHolds s.cfg.sync t.buffered = false then .syncFail
      else
        match lookup s.cfg (t.byte 0) with
        | none => .badId
        | some e' => if (t.byte 1).toNat + 2 = entrySize s.cfg e' then .badCs else .badSize := by
  obtain ⟨htwo, -, hid, hsize, hentry, hfull, hcs⟩ := State.spec_of_valid hvalid
  have htwo' : 2 < t.len.toNat := hlen ▸ htwo
  rw [← hcfg]
  cases hsync : syncHolds t.cfg.sync t.buffered with
  | false => rw [State.verdict_eq_syncFail htwo' hsync]; rfl
  | true =>
    cases hid' : lookup t.cfg (t.byte 0) with
    | none => rw [State.verdict_eq_badId htwo' hsync hid']; rfl
    | some e' =>
      by_cases hsize' : frameSize (t.byte 1) = entrySize t.cfg e'
      · have hsame : t.byte 1 = s.byte 1 := by
          by_contra hdiff
          obtain rfl : j = 1 := of_not_not fun hj1 => hdiff (h 1 (Ne.symm hj1))
          rw [h 0 (by decide), hcfg, hid] at hid'
          obtain rfl := Option.some.inj hid'
          rw [hcfg, hentry, ← hsize] at hsize'
          exact hdiff (frameSize_injective hsize')
        have hentry' : entrySize t.cfg e' = size := by rw [← hsize', hsame, hsize]
        have hlast : size - 1 + 1 = size := Nat.sub_add_cancel (Nat.one_le_of_lt hj)
        have hcs' : t.checksum (entrySize t.cfg e' - 1) ≠ t.byte (entrySize t.cfg e' - 1) := by
          rw [hentry']
          exact State.checksum_ne_byte_of_eq_off h hne (hlast.symm ▸ hj) hcs
        have hfull' : entrySize t.cfg e' ≤ t.len.toNat := by rw [hentry', hlen]; exact hfull
        rw [State.verdict_eq_badCs htwo' hsync hid' hsize' hfull' hcs']
        exact (if_pos hsize').symm
      · rw [State.verdict_eq_badSize htwo' hsync hid' hsize']
        exact (if_neg hsize').symm

/-- Settles O20: the flip changes one buffered byte, and the verdict that it leads to is one of the four that discard. -/
theorem singleBitCorruptionIsRejected : Obligations.SingleBitCorruptionIsRejected := by
  intro s t e size j k hvalid hj hk ht
  obtain ⟨-, -, -, -, -, hfull, -⟩ := State.spec_of_valid hvalid
  have hin : j < 255 := by have := s.len.isLt; omega
  have hbyte : ∀ i, t.byte i = if i = j then s.byte j ^^^ (1#8 <<< k) else s.byte i := by
    rw [ht]; exact fun i => State.byte_setByte s hin i _
  have hoff : ∀ i, i ≠ j → t.byte i = s.byte i := fun i hi => (hbyte i).trans (if_neg hi)
  have hne : t.byte j ≠ s.byte j := by rw [hbyte j, if_pos rfl]; exact Byte.xor_bit_ne _ hk
  have hverdict := State.verdict_of_corrupted hvalid hj (by rw [ht]; rfl) (by rw [ht]; rfl) hoff hne
  refine ⟨hverdict, ?_⟩
  split at hverdict
  · exact ⟨.syncFail, _, .inl ⟨hverdict, rfl, rfl⟩, (ScanTrip.syncFail hverdict).scan_eq⟩
  · split at hverdict
    · exact ⟨.badId, _, .inr (.inl ⟨hverdict, rfl, rfl⟩), (ScanTrip.badId hverdict).scan_eq⟩
    · split at hverdict
      · exact ⟨.badCs, _, .inr (.inr (.inr ⟨hverdict, rfl, rfl⟩)), (ScanTrip.badCs hverdict).scan_eq⟩
      · exact ⟨.badSize, _, .inr (.inr (.inl ⟨hverdict, rfl, rfl⟩)), (ScanTrip.badSize hverdict).scan_eq⟩

end Sys2Proof.Machine
end

section
/-! The statements of spec/42_dispatch.md: LOOKUP (R150 to R152), HDONE (R155 to R158), and the stall of a handler that
never issues HDONE (R160). -/

namespace Sys2Proof.Machine

/-! ### LOOKUP -/

theorem lookup_eq_some_iff {c : Configuration} {b : Byte} {e : Nat} :
    lookup c b = some e ↔
      ∃ d, c.table[e]? = some d ∧ d.id = b ∧ ∀ e' d', e' < e → c.table[e']? = some d' → d'.id ≠ b := by
  rw [lookup, List.findIdx?_eq_some_iff_getElem]
  constructor
  · rintro ⟨he, hid, hfirst⟩
    refine ⟨c.table[e], List.getElem?_eq_getElem he, beq_iff_eq.1 hid, fun e' d' hlt hd' heq => ?_⟩
    obtain ⟨_, rfl⟩ := List.getElem?_eq_some_iff.1 hd'
    exact hfirst e' hlt (beq_iff_eq.2 heq)
  · rintro ⟨d, hd, hid, hfirst⟩
    obtain ⟨he, rfl⟩ := List.getElem?_eq_some_iff.1 hd
    exact ⟨he, beq_iff_eq.2 hid, fun e' hlt heq =>
      hfirst e' _ hlt (List.getElem?_eq_getElem (hlt.trans he)) (beq_iff_eq.1 heq)⟩

/-- R152: the ids of a well-formed table have bit 7 clear (R12). -/
theorem lookup_eq_none_of_msb {c : Configuration} {b : Byte} (hwf : c.failure = none) (hb : b.msb = true) :
    lookup c b = none := by
  refine lookup_eq_none.2 fun d hd hid => ?_
  obtain ⟨e, he⟩ := List.mem_iff_getElem?.1 hd
  obtain ⟨hmax, -⟩ := Configuration.entry_bounds hwf he
  have hhigh : 2 ^ 8 ≤ 2 * b.toNat := BitVec.msb_eq_true_iff_two_mul_ge.1 hb
  rw [hid] at hmax
  bv_omega

/-- Settles O23: LOOKUP is a first-index search, and its comparison takes in bit 7. -/
theorem lookupIsTheFirstExactMatch : Obligations.LookupIsTheFirstExactMatch := fun _ _ =>
  ⟨fun _ => lookup_eq_some_iff, lookup_eq_none, lookup_eq_none_of_msb⟩

/-! ### HDONE -/

theorem exec_hdone_dispatch {s : State} (h : s.phase = .dispatch) (st : Byte) :
    exec (.hdone st) s = .next s.dispatchReturn := whenDispatch_dispatch h

theorem firstAfterDispatch_eq (c : Configuration) (first : Bool) :
    firstAfterDispatch c first = if c.flagClearMode = .afterDispatch then false else first := by
  cases h : c.flagClearMode <;> simp [firstAfterDispatch, h]

/-- R155, R156: the dispatch is counted, and with it whether bytes trail the frame. -/
theorem Counters.afterReturn_eq (c : Counters) (trailing : Prop) [Decidable trailing] :
    (if trailing then (c.inc .hDone).inc .nonemptyAfter else c.inc .hDone) =
      { c with
        hDone := c.hDone + 1
        nonemptyAfter := if trailing then c.nonemptyAfter + 1 else c.nonemptyAfter } := by
  split_ifs <;> rfl

/-- R156: with `KEEP_TRAILING` the trailing bytes stand at the head; no other byte is written. -/
theorem State.byte_dispatchReturn (s : State) (i : Nat) :
    s.dispatchReturn.byte i =
      if s.cfg.keepTrailing = true ∧ i < s.len.toNat - s.curSize.toNat then s.byte (i + s.curSize.toNat)
      else s.byte i := by
  rw [State.dispatchReturn_eq]
  by_cases hkeep : s.cfg.keepTrailing = true
  · have hcopy := State.byte_copyDown s.curSize.toNat (s.len.toNat - s.curSize.toNat) 0 s (by omega) i
    rw [State.copyDown_eq] at hcopy
    simpa [State.byte, hkeep] using hcopy
  · simp [State.byte, hkeep]

/-- Settles O24: the return from the dispatch, field by field and byte by byte; the status operand is not looked at. -/
theorem hdoneCompletesTheDispatch : Obligations.HdoneCompletesTheDispatch := by
  intro st s hs
  refine ⟨s.dispatchReturn, exec_hdone_dispatch hs st, ?_, s.byte_dispatchReturn⟩
  rw [State.dispatchReturn_eq, firstAfterDispatch_eq, Counters.afterReturn_eq]

/-! ### A handler that never issues HDONE -/

theorem notHdone_of_decode_hdone {w : Word} {x : Byte} (h : decode w = .ok (.hdone x)) : notHdone w = false := by
  rw [notHdone, h]

/-- In DISPATCH an instruction other than HDONE leaves the phase, `len` and the outstanding PROCESS as they were. -/
theorem exec_dispatch_frame {i : Instr} {s t : State} (h : exec i s = .next t) (hs : s.phase = .dispatch)
    (hi : ∀ x, i ≠ .hdone x) : t.phase = s.phase ∧ t.len = s.len ∧ t.outstanding = s.outstanding := by
  have hbusy : s.phase ≠ .idle := by simp [hs]
  cases exec_did h with
  | held => exact ⟨rfl, rfl, rfl⟩
  | answered => exact ⟨rfl, rfl, rfl⟩
  | append hidle => exact absurd hidle hbusy
  | process hidle => exact absurd hidle hbusy
  | bufWr => exact ⟨rfl, rfl, rfl⟩
  | send =>
    rw [State.sent, State.buildResponse_eq]
    exact ⟨rfl, rfl, rfl⟩
  | hdone => exact absurd rfl (hi _)

theorem performWord_dispatch_frame {w : Word} {s t : State} (h : performWord w s = .next t) (hs : s.phase = .dispatch)
    (hw : notHdone w = true) : t.phase = s.phase ∧ t.len = s.len ∧ t.outstanding = s.outstanding := by
  rcases performWord_cases w s with ⟨i, hi, hexec⟩ | ⟨_, -, hreject⟩
  · refine exec_dispatch_frame (hexec ▸ h) hs ?_
    rintro x rfl
    rw [notHdone_of_decode_hdone hi] at hw
    cases hw
  · rw [hreject] at h
    cases h
    exact ⟨rfl, rfl, rfl⟩

/-- A fetch that takes up a request leaves it pending on the port of the agent whose turn it is. -/
theorem State.fetch_eq_some {s u : State} {w : Word} (h : s.fetch = (u, some w)) :
    u.resetLine = false ∧ u.ports.get u.turn = some w := by
  rcases s.fetch_cases with ⟨-, hf⟩ | ⟨_, _, _, -, hf⟩ | ⟨a, _, r, -, hline, hport, hf⟩ | ⟨_, _, -, -, hf⟩ |
      ⟨_, -, hf⟩ | ⟨_, -, -, hf⟩ | ⟨_, -, -, hf⟩ <;> rw [hf] at h <;> cases h
  exact ⟨hline, hport⟩

theorem steps_succ_eq_next {n : Nat} {s t : State} (h : steps (n + 1) s = .next t) :
    ∃ u, step s = .next u ∧ steps n u = .next t := by
  rw [steps] at h
  cases hu : step s with
  | next u => rw [hu] at h; exact ⟨u, rfl, h⟩
  | fault f => rw [hu] at h; cases h
  | refused r => rw [hu] at h; cases h

/-- `t` is a later state of the stall in which `s` is: the dispatch has not moved, nothing to come ends it, and what waits
for its end on a port in `s` still waits there. -/
structure Stalled (s t : State) : Prop where
  phase : t.phase = .dispatch
  returns : t.neverReturns
  resets : noReset t.inputs = true
  len : t.len = s.len
  outstanding : t.outstanding = s.outstanding
  waiting : ∀ a w, s.ports.get a = some w → waitsForIdle w = true → t.ports.get a = some w

theorem Stalled.refl {s : State} (hs : s.phase = .dispatch) (hret : s.neverReturns) (hreset : noReset s.inputs = true) :
    Stalled s s :=
  ⟨hs, hret, hreset, rfl, rfl, fun _ _ h _ => h⟩

theorem noReset_of_subset {is js : List Input} (h : noReset is = true) (hsub : js ⊆ is) : noReset js = true :=
  List.all_eq_true.2 fun i hi => List.all_eq_true.1 h i (hsub hi)

section
variable {s u v : State}

/-- What keeps a stall: the inputs only run out, no HDONE comes to a port, and no waiting request leaves one. -/
theorem Stalled.of_frame (h : Stalled s u) (hphase : v.phase = u.phase) (hlen : v.len = u.len)
    (hout : v.outstanding = u.outstanding) (hinputs : v.inputs ⊆ u.inputs)
    (hports : ∀ a w, v.ports.get a = some w → notHdone w = true)
    (hwaiting : ∀ a w, u.ports.get a = some w → waitsForIdle w = true → v.ports.get a = some w) : Stalled s v where
  phase := hphase.trans h.phase
  returns := ⟨hports, fun a w hi => h.returns.2 a w (hinputs hi)⟩
  resets := noReset_of_subset h.resets hinputs
  len := hlen.trans h.len
  outstanding := hout.trans h.outstanding
  waiting a w hw hidle := hwaiting a w (h.waiting a w hw hidle) hidle

theorem Stalled.inputTaken {i : Input} {r : List Input} (h : Stalled s u) (hi : u.inputs = i :: r) (a : Agent) :
    Stalled s { u with inputs := r, turn := a } :=
  h.of_frame rfl rfl rfl (hi ▸ List.subset_cons_self i r) h.returns.1 (fun _ _ hw _ => hw)

/-- An issue adds to an empty port only, and what it adds is no HDONE. -/
theorem Stalled.issue {a : Agent} {w : Word} (h : Stalled s u) (hw : notHdone w = true) : Stalled s (u.issue a w) := by
  rcases u.issue_cases a w with ⟨-, heq⟩ | ⟨-, hempty, -, heq⟩ <;> rw [heq]
  · exact h
  · refine h.of_frame rfl rfl rfl (List.Subset.refl _) (fun b x hx => ?_) (fun b x hx _ => ?_)
    · rw [Ports.get_set] at hx
      split_ifs at hx
      · exact Option.some.inj hx ▸ hw
      · exact h.returns.1 b x hx
    · have hb : b ≠ a := by
        rintro rfl
        rw [hempty] at hx
        cases hx
      rw [Ports.get_set, if_neg hb]
      exact hx

/-- An input takes nothing from a port, and none of those to come resets. -/
theorem Stalled.fetch (h : Stalled s u) : Stalled s u.fetch.1 := by
  rcases u.fetch_cases with ⟨-, hf⟩ | ⟨a, w, r, hi, hf⟩ | ⟨a, w, r, hi, -, -, hf⟩ | ⟨a, r, hi, -, hf⟩ | ⟨r, hi, -⟩ |
      ⟨r, hi, -, -⟩ | ⟨r, hi, -, -⟩
  · rw [hf]; exact h
  · have hw : notHdone w = true := h.returns.2 a w (hi ▸ List.mem_cons_self)
    rw [hf]; exact (h.inputTaken hi u.turn).issue hw
  · rw [hf]; exact h.inputTaken hi a
  · rw [hf]; exact h.inputTaken hi u.turn
  all_goals
    have hreset := h.resets
    rw [hi] at hreset
    cases hreset

/-- A request performed is no HDONE, so DISPATCH stays; it frees its own port, and no other, only if it did not wait. -/
theorem Stalled.performWord {w : Word} (h : Stalled s u) (hline : u.resetLine = false)
    (hport : u.ports.get u.turn = some w) (hw : performWord w u = .next v) : Stalled s v := by
  obtain ⟨hphase, hlen, hout⟩ := performWord_dispatch_frame hw h.phase (h.returns.1 _ _ hport)
  obtain ⟨hinputs, -, hports⟩ := performWord_ports hline hw
  split_ifs at hports with hacc
  · refine h.of_frame hphase hlen hout (hinputs ▸ List.Subset.refl _) (fun b x hx => ?_) (fun b x hx hwait => ?_)
    · rw [hports, Ports.get_set] at hx
      split_ifs at hx
      exact h.returns.1 b x hx
    · have hb : b ≠ u.turn := by
        rintro rfl
        obtain rfl := Option.some.inj (hport.symm.trans hx)
        have hidle := (State.accepts_eq_true.1 hacc).2 hwait
        rw [h.phase] at hidle
        cases hidle
      rw [hports, Ports.get_set, if_neg hb]
      exact hx
  · exact hports ▸ h

theorem Stalled.step (h : Stalled s u) (hstep : step u = .next v) : Stalled s v := by
  have hfetch := h.fetch
  obtain ⟨-, hf | ⟨x, w, hf, hw⟩⟩ := step_next hstep <;> rw [hf] at hfetch
  · exact hfetch
  · obtain ⟨hline, hport⟩ := State.fetch_eq_some hf
    exact hfetch.performWord hline hport hw

theorem Stalled.steps {n : Nat} (h : Stalled s u) (hsteps : steps n u = .next v) : Stalled s v := by
  induction n generalizing u with
  | zero => cases hsteps; exact h
  | succ n ih =>
    obtain ⟨x, hx, hrest⟩ := steps_succ_eq_next hsteps
    exact ih (h.step hx) hrest

end

/-- Settles O45: every step keeps the stall, and a stalled state is what the statement describes. -/
theorem stuckHandlerStallsTheFsv : Obligations.StuckHandlerStallsTheFsv := by
  intro n s t hs hret hreset hsteps
  have hstalled : Stalled s t := (Stalled.refl hs hret hreset).steps hsteps
  refine ⟨hstalled.phase, hstalled.len, hstalled.outstanding, fun a w hw hwait => hstalled.waiting a w hw ?_⟩
  rcases hwait with hdec | ⟨b, hdec⟩
  · exact (waitsForIdle_eq_true hdec).2 (.inr rfl)
  · exact (waitsForIdle_eq_true hdec).2 (.inl ⟨b, rfl⟩)

end Sys2Proof.Machine
end

section
/-! The statements of spec/70_reset_and_hazards.md: what the reset input does (R230), and what the FSV takes directly after
reset (R231). -/

namespace Sys2Proof.Machine

/-! ### The reset input -/

section
variable {s : State} {rest : List Input}

theorem step_of_fetch_none {t : State} (hwf : s.cfg.failure = none) (h : s.fetch = (t, none)) : step s = .next t := by
  rw [step, hwf, h]

/-- R230: while reset is asserted the FSV takes up nothing that is pending. -/
theorem State.fetch_perform_asserted {a : Agent} (hline : s.resetLine = true) (hin : s.inputs = .perform a :: rest) :
    s.fetch = ({ s with inputs := rest }, none) := by
  simp [State.fetch, hin, hline]

theorem State.fetch_assertReset (hin : s.inputs = .assertReset :: rest) :
    s.fetch = (State.applyReset { s with inputs := rest } true, none) := by
  rw [State.fetch, hin]

theorem State.fetch_releaseReset (hline : s.resetLine = true) (hin : s.inputs = .releaseReset :: rest) :
    s.fetch = (State.applyReset { s with inputs := rest } false, none) := by
  simp [State.fetch, hin, hline]

/-- R230: asserting and releasing are one update of the state, which differs in the line alone. -/
theorem step_reset (hwf : s.cfg.failure = none)
    (hin : s.inputs = .assertReset :: rest ∨ (s.inputs = .releaseReset :: rest ∧ s.resetLine = true)) :
    ∃ line, step s = .next (State.applyReset { s with inputs := rest } line) ∧
      (line = true ↔ s.inputs = .assertReset :: rest) := by
  rcases hin with hassert | ⟨hrelease, hline⟩
  · exact ⟨true, step_of_fetch_none hwf (State.fetch_assertReset hassert), by simp [hassert]⟩
  · exact ⟨false, step_of_fetch_none hwf (State.fetch_releaseReset hline hrelease), by simp [hrelease]⟩

end

@[simp] theorem Ports.get_empty (a : Agent) : Ports.empty.get a = none := by cases a <;> rfl

/-- Settles O8: with the line up a perform is dropped, and both edges of the line are `State.applyReset`, whose fields are
read off. -/
theorem resetGivesEveryPieceItsValue : Obligations.ResetGivesEveryPieceItsValue := by
  intro s rest hwf
  refine ⟨fun a hline hin => step_of_fetch_none hwf (State.fetch_perform_asserted hline hin), fun hin => ?_⟩
  obtain ⟨line, hstep, hline⟩ := step_reset hwf hin
  exact ⟨_, hstep, Ports.get_empty, rfl, rfl, rfl, rfl, rfl, hline, fun _ => ⟨rfl, rfl, rfl, rfl, rfl⟩⟩

/-! ### Directly after reset -/

/-- R12, R234: what boots is the state after reset. -/
theorem eq_resetWith_of_configure {c : Configuration} {s : State} (h : State.configure c = .next s) :
    s = State.resetWith c := by
  cases hf : c.failure with
  | none => rw [configure_eq_next hf] at h; cases h; rfl
  | some k => rw [configure_eq_refused hf] at h; cases h

section
variable {s : State}

/-- R98: in IDLE with an empty buffer, `first` is the only bit of the status word that is set. -/
theorem statusWord_of_ready (hidle : s.phase = .idle) (hempty : s.len = 0) (hfirst : s.first = true) :
    statusWord s = 0x00000100 := by
  simp [statusWord, latchShown_eq, phaseBit_eq, hidle, hempty, hfirst]

/-- R110: below capacity the byte is recorded at the tail. -/
theorem State.received_byte_of_lt (h : s.len.toNat < 255) (b : Byte) : (s.received b).byte s.len.toNat = b := by
  rw [State.received, State.appended_eq, if_neg (Nat.ne_of_lt h)]
  exact (State.byte_setByte s h s.len.toNat b).trans (if_pos rfl)

/-- An APPEND to an empty buffer in IDLE leaves its byte alone there. -/
theorem exec_append_empty (hidle : s.phase = .idle) (hempty : s.len = 0) (b : Byte) :
    ∃ t, exec (.append b) s = .next t ∧ t.responses = s.responses ++ [⟨s.turn, .ok, 0⟩] ∧ t.len = 1 ∧ t.byte 0 = b := by
  have hlen : s.len.toNat = 0 := by rw [hempty]; rfl
  have hbyte : (s.received b).byte s.len.toNat = b := State.received_byte_of_lt (by omega) b
  refine ⟨s.received b, exec_append_idle hidle b, ?_, ?_, by rwa [hlen] at hbyte⟩
  · rw [State.received_eq]
  · rw [State.received_len, hempty]; rfl

end

/-- Settles O10: what boots is `State.resetWith`, which is in IDLE with an empty buffer, so no request is held, and a
PROCESS stops at once as O14 says. -/
theorem afterResetTheFsvIsReady : Obligations.AfterResetTheFsvIsReady := by
  intro c s h
  obtain rfl := eq_resetWith_of_configure h
  refine ⟨rfl, rfl, rfl, ⟨_, rfl, ?_⟩, ?_, exec_append_empty rfl rfl⟩
  · rw [State.respond_responses, statusWord_of_ready rfl rfl rfl]
    rfl
  · exact ⟨_, shortBufferStopsTheScan _ rfl (Nat.zero_le 2), rfl⟩

end Sys2Proof.Machine
end

section
/-! The statements of spec/30_encoding.md about the encoder: decoding and encoding are inverse to each other (R93,
R94). First the fields of a request word, then what the encoder makes of the request that a row builds. -/

namespace Sys2Proof

/-! ### The fields of a request word -/

section
variable (op : BitVec 4) (a b : Byte)

theorem operandB_requestWord : operandB (requestWord op a b) = b := BitVec.extractLsb'_append_eq_right

theorem operandA_requestWord : operandA (requestWord op a b) = a := by
  rw [operandA, requestWord, BitVec.extractLsb'_append_eq_of_le (le_refl 8)]
  exact BitVec.extractLsb'_append_eq_right

end

/-- R90: a word whose reserved bits are zero is made of its operation code and its operands. -/
theorem requestWord_of_fields {w : Word} (h : w.extractLsb' 16 12 = 0) :
    requestWord (opField w) (operandA w) (operandB w) = w := by
  rw [requestWord, ← h, opField, operandA, operandB,
    BitVec.extractLsb'_append_extractLsb'_eq_extractLsb' (show 28 = 16 + 12 from rfl),
    BitVec.extractLsb'_append_extractLsb'_eq_extractLsb' (show 16 = 8 + 8 from rfl),
    BitVec.extractLsb'_append_extractLsb'_eq_extractLsb' (show 8 = 0 + 8 from rfl)]
  exact BitVec.extractLsb'_eq_self

/-! ### Both ways round -/

/-- Settles O1: an instruction's word lies on its own row, and that row reads the operands back. -/
theorem decodeInvertsEncode : Obligations.DecodeInvertsEncode := by
  intro i
  have hrow : Laws.WordOnRow.Statement i := by
    cases i with
    | append b => exact Laws.WordOnRow.append b
    | process => exact Laws.WordOnRow.process
    | bufRd x => exact Laws.WordOnRow.bufRd x
    | bufWr x d => exact Laws.WordOnRow.bufWr x d
    | send p => exact Laws.WordOnRow.send p
    | hdone x => exact Laws.WordOnRow.hdone x
    | cntRd k => exact Laws.WordOnRow.cntRd k
    | dcntRd e => exact Laws.WordOnRow.dcntRd e
    | statRd => exact Laws.WordOnRow.statRd
  obtain ⟨r, hr, hsel⟩ := hrow
  have hbuild : r.build (encode i) = i := by
    cases i <;> cases hr <;> simp [encode, operandA_requestWord, operandB_requestWord]
  rw [decode_eq_ok_of_selects (List.mem_of_getElem? hr) hsel, hbuild]

/-- R93: the request that the selecting row builds has the row's operation code, and as operands those of the word. -/
theorem encode_build_of_selects {r : OpcodeRow} {w : Word} (hr : r ∈ opcodeRows) (h : r.selects w = true) :
    encode (r.build w) = requestWord (opField w) (operandA w) (operandB w) := by
  have hop := opField_eq_of_selects hr h
  have hA := operandA_eq_zero_of_selects hr h
  have hB := operandB_eq_zero_of_selects hr h
  rw [hop] at hA hB ⊢
  fin_cases hr <;> simp_all [encode, opField]

theorem exists_row_of_decode_eq_ok {w : Word} {i : Instr} (h : decode w = .ok i) :
    ∃ r ∈ opcodeRows, r.selects w = true ∧ r.build w = i := by
  unfold decode at h
  cases hfind : opcodeRows.find? (fun r => r.selects w) with
  | none => rw [hfind] at h; cases h
  | some r =>
    rw [hfind] at h
    exact ⟨r, List.mem_of_find?_eq_some hfind, List.find?_some (p := (OpcodeRow.selects · w)) hfind, Except.ok.inj h⟩

/-- Settles O2: the selecting row keeps every bit of the word, in a field of the request or as a zero. -/
theorem encodeInvertsDecode : Obligations.EncodeInvertsDecode := by
  intro w i h
  obtain ⟨r, hr, hsel, rfl⟩ := exists_row_of_decode_eq_ok h
  rw [encode_build_of_selects hr hsel, requestWord_of_fields (reserved_eq_zero_of_selects hr hsel)]

/-- Settles O5: the nine words are the encoder's words of their requests. -/
theorem writtenWordsDecode : Obligations.WrittenWordsDecode :=
  ⟨decodeInvertsEncode (.append 0xFC), decodeInvertsEncode .process, decodeInvertsEncode (.bufRd 200),
    decodeInvertsEncode (.bufWr 254 0x99), decodeInvertsEncode (.send 252), decodeInvertsEncode (.hdone 7),
    decodeInvertsEncode (.cntRd 5), decodeInvertsEncode (.dcntRd 1), decodeInvertsEncode .statRd⟩

end Sys2Proof
end

section
/-! The invariant of the machine, `State.Inv` (R9, R39, R158, R193, R233): reset meets it, and every step keeps it. One
lemma for each operation that the meanings share; then the scan, one instruction, the taking of one input, and one
step. -/

namespace Sys2Proof.Machine

/-! ### The sum of the call counters -/

theorem dcntSum_cons (c : Counter) (d : List Counter) : dcntSum (c :: d) = c + dcntSum d := rfl

theorem dcntSum_replicate_zero (n : Nat) : dcntSum (List.replicate n 0) = 0 := by
  induction n with
  | zero => rfl
  | succ n ih => rw [List.replicate_succ, dcntSum_cons, ih]; rfl

theorem dcntSum_incDcnt {d : List Counter} {e : Nat} (h : e < d.length) : dcntSum (incDcnt d e) = dcntSum d + 1 := by
  induction d generalizing e with
  | nil => cases h
  | cons c d ih =>
    cases e with
    | zero =>
      rw [incDcnt, List.modify_zero_cons, dcntSum_cons, dcntSum_cons]
      ac_rfl
    | succ e =>
      have hrest : dcntSum (incDcnt d e) = dcntSum d + 1 := ih (Nat.lt_of_succ_lt_succ h)
      rw [incDcnt, List.modify_succ_cons, dcntSum_cons, dcntSum_cons, BitVec.add_assoc, ← hrest]
      rfl

/-! ### Reset -/

theorem State.inv_resetWith {c : Configuration} (h : c.failure = none) : (State.resetWith c).Inv where
  cfgWf := h
  bufWf := rfl
  dcntSize := List.length_replicate
  latches := nofun
  outstanding := ⟨by simp [State.resetWith], nofun⟩
  written := nofun
  counters := ⟨BitVec.sub_self 0, dcntSum_replicate_zero _⟩

/-- Settles O36: what boots is a well-formed configuration's `State.resetWith`. -/
theorem resetMeetsTheInvariant : Obligations.ResetMeetsTheInvariant := by
  intro c s h
  obtain rfl := eq_resetWith_of_configure h
  cases hwf : c.failure with
  | none => exact State.inv_resetWith hwf
  | some k => rw [configure_eq_refused hwf] at h; cases h

/-! ### What each operation keeps -/

section
variable {s t : State}

/-- The invariant speaks of none of these fields. -/
theorem State.Inv.records (h : s.Inv) (first resetLine : Bool) (session : Nat) (turn : Agent) (inputs : List Input)
    (responses : List Delivery) (tx : List (List Byte)) (trace : List TraceEntry) :
    State.Inv { s with
      first := first, resetLine := resetLine, session := session, turn := turn, inputs := inputs,
      responses := responses, tx := tx, trace := trace } :=
  ⟨h.cfgWf, h.bufWf, h.dcntSize, h.latches, h.outstanding, h.written, h.counters⟩

theorem State.Inv.applyReset (h : s.Inv) (line : Bool) : (s.applyReset line).Inv :=
  (State.inv_resetWith h.cfgWf).records ..

/-- The buffer may be replaced by any other whose buffered bytes are written; in DISPATCH it may not shrink (R39). -/
theorem State.Inv.withBuffer (h : s.Inv) {m : Memory} {l : BitVec 8} {trace : List TraceEntry} (hwf : m.wf = true)
    (hwritten : ∀ i, i < l.toNat → (m.read i).isSome = true) (hlen : s.phase = .dispatch → s.len.toNat ≤ l.toNat) :
    State.Inv { s with buf := m, len := l, trace := trace } where
  cfgWf := h.cfgWf
  bufWf := hwf
  dcntSize := h.dcntSize
  latches hphase :=
    have ⟨d, hd, hsize, hfits⟩ := h.latches hphase
    ⟨d, hd, hsize, hfits.trans (hlen hphase)⟩
  outstanding := h.outstanding
  written := hwritten
  counters := h.counters

theorem Memory.read_write_isSome {m : Memory} {i j : Nat} {b : Byte} (h : (m.read j).isSome = true) :
    ((m.write i b).read j).isSome = true := by
  unfold Memory.write
  split_ifs
  · rw [Memory.read_insert]
    split_ifs
    · rfl
    · exact h
  · exact h

theorem State.Inv.setByte (h : s.Inv) (i : Nat) (b : Byte) : (s.setByte i b).Inv :=
  h.withBuffer (Memory.wf_write h.bufWf i b) (fun j hj => Memory.read_write_isSome (h.written j hj)) fun _ => le_refl _

/-- R193 (a), (b): only the counts of dispatches begun and ended enter the equations. -/
theorem State.Inv.count (h : s.Inv) {k : CounterId} (hinvoked : k ≠ .hInvoked) (hdone : k ≠ .hDone) :
    (s.count k).Inv where
  cfgWf := h.cfgWf
  bufWf := h.bufWf
  dcntSize := h.dcntSize
  latches := h.latches
  outstanding := h.outstanding
  written := h.written
  counters := by
    cases k
    case hInvoked => exact absurd rfl hinvoked
    case hDone => exact absurd rfl hdone
    all_goals exact h.counters

/-- Freeing a port leaves the agent with the outstanding PROCESS without another request. -/
theorem State.Inv.respond (h : s.Inv) (st : Status) (d : Word) : (s.respond st d).Inv where
  cfgWf := h.cfgWf
  bufWf := h.bufWf
  dcntSize := h.dcntSize
  latches := h.latches
  outstanding := by
    obtain ⟨hphase, hports⟩ := h.outstanding
    refine ⟨hphase, fun a ha => ?_⟩
    rw [State.respond_ports, Ports.get_set, hports a ha, ite_self]
  written := h.written
  counters := h.counters

/-- DISCARD comes in IDLE only, where the latches hold no frame. -/
theorem State.Inv.discard (h : s.Inv) (hidle : s.phase = .idle) (htwo : 2 < s.len.toNat) (r : FramingEvent) :
    (s.discard r).Inv := by
  have hlen := State.len_discard s r (by omega)
  have hwf := State.discard_wf s r h.bufWf
  have hwritten : ∀ i, i < (s.discard r).len.toNat → ((s.discard r).buf.read i).isSome = true := fun i hi =>
    State.discard_written s r i (h.written i (by omega))
  rw [State.discard_eq] at hwf hwritten ⊢
  exact h.withBuffer hwf hwritten (by simp [hidle])

/-- R110, R111: the byte recorded is the one place that becomes part of the buffered bytes. -/
theorem State.Inv.appended (h : s.Inv) (hidle : s.phase = .idle) (b : Byte) : (s.appended b).Inv := by
  have hcap : s.len.toNat < 256 := s.len.isLt
  rw [State.appended_eq]
  by_cases hfull : s.len.toNat = 255
  · simp only [if_pos hfull]
    refine h.withBuffer (Memory.wf_write h.bufWf _ b) (fun i hi => ?_) (by simp [hidle])
    have hzero : i = 0 := Nat.lt_one_iff.1 hi
    rw [Memory.read_write _ (by decide), if_pos hzero]
    rfl
  · simp only [if_neg hfull]
    refine h.withBuffer (Memory.wf_write h.bufWf _ b) (fun i hi => ?_) (by simp [hidle])
    have htail : i < s.len.toNat + 1 := hi.trans_eq (BitVec.toNat_add_of_lt (by change _ + 1 < 256; omega))
    rw [Memory.read_write _ (by omega)]
    split_ifs with hi'
    · rfl
    · exact h.written i (by omega)

theorem State.Inv.writeHeader (h : s.Inv) (p : Nat) : (s.writeHeader p).Inv := by
  unfold State.writeHeader
  split_ifs
  · exact h.setByte ..
  · exact (h.setByte ..).setByte ..

theorem State.Inv.sent (h : s.Inv) (p : Nat) : (s.sent p).Inv :=
  State.Inv.records ((h.writeHeader p).setByte ..) ..

/-- R130: what LOOKUP found in a well-formed table fits the latches, and one dispatch more is begun than ended. -/
theorem State.Inv.dispatchEntry (h : s.Inv) (hidle : s.phase = .idle) {e size : Nat} (hv : s.verdict = .valid e size) :
    (s.dispatchEntry e size).Inv := by
  obtain ⟨-, -, hid, -, hsize, hfull, -⟩ := State.spec_of_valid hv
  obtain ⟨d, hd, -, he⟩ := lookup_eq_some hid
  obtain ⟨-, -, hmax, -, he256⟩ := Configuration.entry_bounds h.cfgWf hd
  have hdsize : d.size = size := (entrySize_of_getElem? hd).symm.trans hsize
  have hcurE : (BitVec.ofNat 8 e).toNat = e := Nat.mod_eq_of_lt he256
  have hcurSize : (BitVec.ofNat 8 size).toNat = size := Nat.mod_eq_of_lt (by omega)
  obtain ⟨hbalance, hsum⟩ := h.counters
  rw [hidle] at hbalance
  exact {
    cfgWf := h.cfgWf
    bufWf := h.bufWf
    dcntSize := (List.length_modify ..).trans h.dcntSize
    latches := fun _ => ⟨d, by simpa [hcurE] using hd, by simpa [hcurSize] using hdsize, by simpa [hcurSize] using hfull⟩
    outstanding := by simp [State.oneOutstanding]
    written := h.written
    counters := by
      refine ⟨?_, ?_⟩
      · change s.cnt.hInvoked + 1 - s.cnt.hDone = 1
        change s.cnt.hInvoked - s.cnt.hDone = 0 at hbalance
        bv_omega
      · change _ = s.cnt.hInvoked + 1
        rw [← hsum]
        exact dcntSum_incDcnt (h.dcntSize ▸ he) }

/-- R155, R158, R193 (a): the dispatch ended balances the one begun, and nothing is outstanding after it. -/
theorem State.Inv.ended (h : s.Inv) (hs : s.phase = .dispatch) (first : Bool) (n : Counter) (p : Ports)
    (responses : List Delivery) :
    State.Inv { s with
      first := first, phase := .idle, cnt := { s.cnt with hDone := s.cnt.hDone + 1, nonemptyAfter := n }, ports := p,
      outstanding := none, responses := responses } where
  cfgWf := h.cfgWf
  bufWf := h.bufWf
  dcntSize := h.dcntSize
  latches := nofun
  outstanding := ⟨by simp, nofun⟩
  written := h.written
  counters := by
    obtain ⟨hbalance, hsum⟩ := h.counters
    rw [if_pos hs] at hbalance
    refine ⟨?_, hsum⟩
    change s.cnt.hInvoked - (s.cnt.hDone + 1) = 0
    bv_omega

/-- R156: the trailing bytes that stay buffered have been written. -/
theorem State.Inv.dispatchReturn (h : s.Inv) (hs : s.phase = .dispatch) : s.dispatchReturn.Inv := by
  rw [State.dispatchReturn_eq, Counters.afterReturn_eq]
  by_cases hkeep : s.cfg.keepTrailing = true
  · have hwritten : ∀ i, i < (BitVec.ofNat 8 (s.len.toNat - s.curSize.toNat)).toNat →
        ((State.copyDown s.curSize.toNat (s.len.toNat - s.curSize.toNat) 0 s).buf.read i).isSome = true := by
      intro i hi
      rw [BitVec.toNat_ofNat] at hi
      exact State.copyDown_isSome _ _ 0 s (by omega) i (.inl (h.written i (by omega)))
    simp only [if_pos hkeep]
    exact (h.ended hs ..).withBuffer (State.copyDown_wf _ _ _ s h.bufWf) hwritten nofun
  · simp only [if_neg hkeep]
    exact (h.ended hs ..).withBuffer h.bufWf (fun _ hi => absurd hi (Nat.not_lt_zero _)) nofun

/-! ### The scan -/

theorem ScanTrip.phase_eq (h : ScanTrip s t) : t.phase = s.phase := by
  obtain ⟨_, -, ht, -⟩ := h.frame
  rw [ht]

theorem State.Inv.trip (h : s.Inv) (hidle : s.phase = .idle) (htrip : ScanTrip s t) : t.Inv := by
  have htwo := htrip.two_lt
  cases htrip with
  | syncFail => exact h.discard hidle htwo _
  | badId => exact (h.count (by decide) (by decide)).discard hidle htwo _
  | badSize => exact (h.count (by decide) (by decide)).discard hidle htwo _
  | badCs => exact (h.count (by decide) (by decide)).discard hidle htwo _

theorem State.Inv.trips (h : s.Inv) (hidle : s.phase = .idle) (htrips : Relation.ReflTransGen ScanTrip s t) :
    t.Inv ∧ t.phase = .idle := by
  induction htrips with
  | refl => exact ⟨h, hidle⟩
  | tail _ htrip ih =>
    obtain ⟨hinv, hphase⟩ := ih
    exact ⟨hinv.trip hphase htrip, htrip.phase_eq.trans hphase⟩

theorem State.Inv.scanEnd (h : s.Inv) (hidle : s.phase = .idle) (hend : ScanEnd s t) : t.Inv := by
  cases hend with
  | insufficient => exact State.Inv.respond (h.records ..) ..
  | notFull => exact State.Inv.respond (State.Inv.records (h.count (by decide) (by decide)) ..) ..
  | valid hv => exact h.dispatchEntry hidle hv

theorem State.Inv.scan (h : s.Inv) (hidle : s.phase = .idle) : (s.scan s.len.toNat).Inv := by
  obtain ⟨u, htrips, hend⟩ := State.scan_spec (le_refl s.len.toNat)
  obtain ⟨hu, huidle⟩ := h.trips hidle htrips
  exact hu.scanEnd huidle hend

/-! ### One instruction, one input, one step -/

theorem State.Inv.exec {i : Instr} (h : s.Inv) (hexec : exec i s = .next t) : t.Inv := by
  cases exec_did hexec with
  | held => exact h
  | answered => exact h.respond ..
  | append hidle => exact (h.appended hidle _).respond ..
  | process hidle => exact (h.count (by decide) (by decide)).scan hidle
  | bufWr => exact (h.setByte ..).respond ..
  | send => exact (h.sent _).respond ..
  | hdone hs => exact h.dispatchReturn hs

theorem State.Inv.performWord {w : Word} (h : s.Inv) (hw : performWord w s = .next t) : t.Inv := by
  rcases performWord_cases w s with ⟨i, -, hexec⟩ | ⟨_, -, hreject⟩
  · exact h.exec (hexec ▸ hw)
  · rw [hreject] at hw
    cases hw
    exact h.respond ..

/-- R9: an agent with an outstanding PROCESS is busy, so its issue is dropped. -/
theorem State.Inv.issue (h : s.Inv) (a : Agent) (w : Word) : (s.issue a w).Inv := by
  rcases s.issue_cases a w with ⟨-, heq⟩ | ⟨-, -, hfree, heq⟩ <;> rw [heq]
  · exact h
  · obtain ⟨hphase, hports⟩ := h.outstanding
    refine ⟨h.cfgWf, h.bufWf, h.dcntSize, h.latches, ⟨hphase, fun b hb => ?_⟩, h.written, h.counters⟩
    have hba : b ≠ a := by rintro rfl; exact hfree hb
    rw [Ports.get_set, if_neg hba]
    exact hports b hb

theorem State.Inv.fetch (h : s.Inv) : s.fetch.1.Inv := by
  rcases s.fetch_cases with ⟨-, hf⟩ | ⟨a, w, r, -, hf⟩ | ⟨a, w, r, -, -, -, hf⟩ | ⟨a, r, -, -, hf⟩ | ⟨r, -, hf⟩ |
      ⟨r, -, -, hf⟩ | ⟨r, -, -, hf⟩ <;> rw [hf]
  · exact h
  · exact State.Inv.issue (h.records ..) ..
  · exact h.records ..
  · exact h.records ..
  · exact State.Inv.applyReset (h.records ..) ..
  · exact State.Inv.applyReset (h.records ..) ..
  · exact h.records ..

end

/-- Settles O37: a step takes one input and performs one request at most, and both keep the invariant. -/
theorem everyStepKeepsTheInvariant : Obligations.EveryStepKeepsTheInvariant := by
  intro s t h hstep
  have hfetch := h.fetch
  obtain ⟨-, hf | ⟨u, w, hf, hw⟩⟩ := step_next hstep <;> rw [hf] at hfetch
  · exact hfetch
  · exact hfetch.performWord hw

end Sys2Proof.Machine
end

section
/-! One step and one request (R9, R38, R64, R69, R75, R96): what taking an input does, what the phase checks answer, and
the requests that read or write one place: APPEND (R110, R111), BUF_RD and BUF_WR (R175, R176), CNT_RD and DCNT_RD
(R190, R191). -/

namespace Sys2Proof.Machine

/-! ### Taking one input -/

section
variable {s : State} {a : Agent} {w : Word} {rest : List Input}

theorem State.fetch_nil (hin : s.inputs = []) : s.fetch = (s, none) := by rw [State.fetch, hin]

theorem State.fetch_issue (hin : s.inputs = .issue a w :: rest) :
    s.fetch = (State.issue { s with inputs := rest } a w, none) := by rw [State.fetch, hin]

theorem State.fetch_perform (hline : s.resetLine = false) (hin : s.inputs = .perform a :: rest)
    (hport : s.ports.get a = some w) : s.fetch = ({ s with inputs := rest, turn := a }, some w) := by
  simp [State.fetch, hin, hline, hport]

theorem State.fetch_perform_empty (hin : s.inputs = .perform a :: rest) (hport : s.ports.get a = none) :
    s.fetch = ({ s with inputs := rest }, none) := by
  simp [State.fetch, hin, hport]

theorem State.issue_of_free (hline : s.resetLine = false) (hport : s.ports.get a = none) (hout : s.outstanding ≠ some a) :
    s.issue a w = { s with ports := s.ports.set a (some w) } := by
  rcases s.issue_cases a w with ⟨hdrop, -⟩ | ⟨-, -, -, heq⟩
  · simp [hline, hport, hout] at hdrop
  · exact heq

theorem State.issue_of_busy (h : s.resetLine = true ∨ s.ports.get a ≠ none ∨ s.outstanding = some a) :
    s.issue a w = s := by
  rcases s.issue_cases a w with ⟨-, heq⟩ | ⟨hline, hport, hout, -⟩
  · exact heq
  · simp [hline, hport, hout] at h

theorem step_of_fetch_some {t : State} (hwf : s.cfg.failure = none) (h : s.fetch = (t, some w)) :
    step s = performWord w t := by
  rw [step, hwf, h]

theorem performWord_of_decode {i : Instr} (h : decode w = .ok i) : performWord w s = exec i s := by
  rw [performWord, h]

end

/-- Settles O6: the input yields the word that is pending, and the word is performed as the request it decodes to. -/
theorem stepPerformsThePendingRequest : Obligations.StepPerformsThePendingRequest := by
  intro s a w i rest hwf hline hin hport hdecode
  rw [step_of_fetch_some hwf (State.fetch_perform hline hin hport), performWord_of_decode hdecode]

/-- Settles O7: no input that the clauses name yields a word to perform; an issue does what R9 and R235 leave it to do. -/
theorem stepWithoutRequest : Obligations.StepWithoutRequest := by
  intro s hwf
  refine ⟨fun hin => ?_, fun a w rest hin hline hport hout => ?_, fun a w rest hin hbusy => ?_,
    fun a rest hin hport => ?_⟩
  · exact step_of_fetch_none hwf (State.fetch_nil hin)
  · have hissue : State.issue { s with inputs := rest } a w =
        { s with inputs := rest, ports := s.ports.set a (some w) } := State.issue_of_free hline hport hout
    exact step_of_fetch_none hwf (hissue ▸ State.fetch_issue hin)
  · have hissue : State.issue { s with inputs := rest } a w = { s with inputs := rest } := State.issue_of_busy hbusy
    exact step_of_fetch_none hwf (hissue ▸ State.fetch_issue hin)
  · exact step_of_fetch_none hwf (State.fetch_perform_empty hin hport)

/-! ### The phase checks -/

/-- Settles O12: both requests are checked for IDLE before anything else. -/
theorem appendAndProcessAreHeldInDispatch : Obligations.AppendAndProcessAreHeldInDispatch := fun _ _ hs =>
  ⟨whenIdle_dispatch hs, whenIdle_dispatch hs⟩

/-- Settles O25: the four handler operations are checked for DISPATCH before their ranges. -/
theorem handlerOperationsInIdleAnswerErrState : Obligations.HandlerOperationsInIdleAnswerErrState := by
  rintro i s hs (⟨x, rfl⟩ | ⟨x, d, rfl⟩ | ⟨p, rfl⟩ | ⟨x, rfl⟩)
  · exact whenDispatch_idle hs
  · exact whenDispatch_idle hs
  · exact whenDispatch_idle hs
  · exact whenDispatch_idle hs

/-! ### APPEND -/

theorem State.byte_received (s : State) (b : Byte) (i : Nat) :
    (s.received b).byte i = if i = (if s.len.toNat = 255 then 0 else s.len.toNat) then b else s.byte i := by
  have hcap : s.len.toNat < 256 := s.len.isLt
  rw [State.received, State.appended_eq]
  exact State.byte_setByte s (by split_ifs <;> omega) i b

/-- Settles O11: APPEND in IDLE is `State.received`, whose fields and bytes are read off. -/
theorem appendRecordsOneByte : Obligations.AppendRecordsOneByte := by
  intro b s hidle
  refine ⟨s.received b, exec_append_idle hidle b, ?_, s.byte_received b⟩
  rw [State.received, State.appended_eq]
  rfl

/-! ### The handler's access to one byte -/

section
variable {s : State} {x : Byte}

theorem bufIndexLegal_eq_true : bufIndexLegal x = true ↔ x.toNat ≤ 254 := decide_eq_true_iff

theorem exec_bufRd_inside (hs : s.phase = .dispatch) (hx : x.toNat ≤ 254) :
    exec (.bufRd x) s = .next (s.respond .ok ((s.byte x.toNat).setWidth 32)) := by
  rw [exec, execBufRd, whenDispatch_dispatch hs, bufIndexLegal_eq_true.2 hx, whenInRange_true]

theorem exec_bufWr_inside {d : Byte} (hs : s.phase = .dispatch) (hx : x.toNat ≤ 254) :
    exec (.bufWr x d) s = .next ((s.setByte x.toNat d).respond .ok 0) := by
  rw [exec, execBufWr, whenDispatch_dispatch hs, bufIndexLegal_eq_true.2 hx, whenInRange_true]

end

/-- Settles O31: the answer's data word is the byte, zero-extended. -/
theorem bufRdAnswersTheByte : Obligations.BufRdAnswersTheByte := by
  intro x s hs hx
  rw [exec_bufRd_inside hs hx, ← BitVec.ofNat_toNat]
  rfl

/-- Settles O32: `State.setByte` writes one byte of the buffer, and the index is within it. -/
theorem bufWrStoresTheByte : Obligations.BufWrStoresTheByte := by
  intro x d s hs hx
  exact ⟨_, exec_bufWr_inside hs hx, rfl, fun a => State.byte_setByte s (Nat.lt_succ_of_le hx) a d⟩

/-! ### The diagnostic reads -/

/-- R40: the counters in the order of their indices. -/
theorem getElem?_counters (c : Counters) (k : Byte) :
    [c.attempts, c.badId, c.badSize, c.badCs, c.hInvoked, c.hDone, c.notFull, c.nonemptyAfter][k.toNat]? =
      (counterAt k).map c.get := by
  unfold counterAt
  rcases k.toNat with _ | _ | _ | _ | _ | _ | _ | _ | n <;> rfl

/-- Settles O33: the index map and `counterAt` agree at every index. -/
theorem cntRdAnswersTheIndexedCounter : Obligations.CntRdAnswersTheIndexedCounter := by
  intro k v s hv
  rw [getElem?_counters] at hv
  obtain ⟨c, hc, rfl⟩ := Option.map_eq_some_iff.1 hv
  rw [exec, execCntRd, hc]
  rfl

/-- Settles O34: the index is within `N_CMD`, and the list of call counters has a value there. -/
theorem dcntRdAnswersTheCallCounter : Obligations.DcntRdAnswersTheCallCounter := by
  intro e v s he hv
  have hlegal : descriptorIndexLegal s.cfg e = true := decide_eq_true he
  rw [exec, execDcntRd, hlegal, whenInRange_true, List.getD_eq_getElem?_getD, hv]
  rfl

end Sys2Proof.Machine
end

section
/-! Further statements of spec/41_validator.md: the head that waits for more bytes (R128), the bytes that PROCESS never
reads (R233), and the acceptance of a well-formed frame, whole or fed byte by byte (R80, R101, R124). -/

namespace Sys2Proof.Machine

/-! ### The three ways a PROCESS can stop at the first head -/

section
variable {s : State} {e size : Nat}

theorem State.verdict_eq_notFull (hlen : 2 < s.len.toNat) (hsync : syncHolds s.cfg.sync s.buffered = true)
    (hid : lookup s.cfg (s.byte 0) = some e) (hsize : frameSize (s.byte 1) = entrySize s.cfg e)
    (hwait : s.len.toNat < entrySize s.cfg e) : s.verdict = .notFull := by
  simp [State.verdict_of_two_lt hlen, hsync, hid, hsize, hwait]

theorem State.scan_of_notFull (h : s.verdict = .notFull) : s.scan s.len.toNat = s.stopNotFull := by
  obtain ⟨htwo, -⟩ := State.spec_of_notFull h
  obtain ⟨n, hn⟩ := Nat.exists_eq_add_one_of_ne_zero (Nat.ne_zero_of_lt htwo)
  rw [hn, State.scan, h]

theorem exec_process_insufficient (hidle : s.phase = .idle) (h : s.verdict = .insufficient) :
    exec .process s = .next (s.count .attempts).stopInsufficient := by
  rw [exec_process_idle hidle, State.scan_of_insufficient ((s.verdict_count _).trans h)]

theorem exec_process_notFull (hidle : s.phase = .idle) (h : s.verdict = .notFull) :
    exec .process s = .next (s.count .attempts).stopNotFull := by
  rw [exec_process_idle hidle, State.scan_of_notFull ((s.verdict_count _).trans h)]

theorem exec_process_valid (hidle : s.phase = .idle) (h : s.verdict = .valid e size) :
    exec .process s = .next ((s.count .attempts).dispatchEntry e size) := by
  rw [exec_process_idle hidle, State.scan_of_valid ((s.verdict_count _).trans h)]

end

/-- Settles O17: the checks up to the frame's completeness pass, so the verdict is `notFull`, at which the scan stops. -/
theorem incompleteFrameWaits : Obligations.IncompleteFrameWaits := by
  intro s e d hidle htwo hsync hid hd hsize hwait
  rw [← entrySize_of_getElem? hd] at hsize hwait
  rw [exec_process_notFull hidle (State.verdict_eq_notFull htwo hsync hid hsize hwait)]
  simp [State.stopNotFull, State.count, State.note, State.respond, Counters.inc, dataNone]

/-! ### The bytes that PROCESS does not read -/

/-- The states agree in all but the buffer and its draw, and there in the buffered bytes. -/
structure AgreeOnBuffered (s s' : State) : Prop where
  frame : s' = { s with buf := s'.buf, session := s'.session }
  byte : ∀ i, i < s.len.toNat → s'.byte i = s.byte i

section
variable {s s' : State}

theorem AgreeOnBuffered.verdict (h : AgreeOnBuffered s s') : s'.verdict = s.verdict :=
  State.verdict_congr (by rw [h.frame]) (by rw [h.frame]) h.byte

theorem AgreeOnBuffered.count (h : AgreeOnBuffered s s') (k : CounterId) : AgreeOnBuffered (s.count k) (s'.count k) :=
  ⟨by rw [h.frame]; rfl, h.byte⟩

/-- Each byte that stays buffered comes from a buffered one. -/
theorem AgreeOnBuffered.discard (h : AgreeOnBuffered s s') (hlen : 1 ≤ s.len.toNat) (r : FramingEvent) :
    AgreeOnBuffered (s.discard r) (s'.discard r) where
  frame := by
    rw [State.discard_eq s', State.discard_eq s, h.frame]
  byte i hi := by
    have hlen' : s'.len = s.len := by rw [h.frame]
    rw [State.len_discard s r hlen] at hi
    rw [State.byte_discard, State.byte_discard, hlen', if_pos hi, if_pos hi, h.byte (i + 1) (by omega)]

theorem AgreeOnBuffered.stopInsufficient (h : AgreeOnBuffered s s') :
    AgreeOnBuffered s.stopInsufficient s'.stopInsufficient :=
  ⟨by rw [h.frame]; rfl, h.byte⟩

theorem AgreeOnBuffered.stopNotFull (h : AgreeOnBuffered s s') : AgreeOnBuffered s.stopNotFull s'.stopNotFull :=
  ⟨by rw [h.frame]; rfl, h.byte⟩

theorem AgreeOnBuffered.dispatchEntry (h : AgreeOnBuffered s s') (e size : Nat) :
    AgreeOnBuffered (s.dispatchEntry e size) (s'.dispatchEntry e size) :=
  ⟨by rw [h.frame]; rfl, h.byte⟩

/-- The two scans go in step: agreeing states have one verdict, and what it leads to keeps them agreeing. -/
theorem AgreeOnBuffered.scan (h : AgreeOnBuffered s s') (n : Nat) : AgreeOnBuffered (s.scan n) (s'.scan n) := by
  induction n generalizing s s' with
  | zero => exact h.stopInsufficient
  | succ n ih =>
    have hspec := s.verdict_spec
    unfold State.scan
    rw [h.verdict]
    cases hv : s.verdict <;> rw [hv] at hspec
    case insufficient => exact h.stopInsufficient
    case notFull => exact h.stopNotFull
    case valid e size => exact h.dispatchEntry e size
    all_goals
      obtain ⟨htwo, -⟩ := hspec
      have hlen : 1 ≤ s.len.toNat := by omega
    case syncFail => exact ih (h.discard hlen _)
    case badId => exact ih ((h.count _).discard hlen _)
    case badSize => exact ih ((h.count _).discard hlen _)
    case badCs => exact ih ((h.count _).discard hlen _)

end

/-- Settles O21: the scans of the two states go in step, and no PROCESS changes the draw. -/
theorem processIgnoresStaleBytes : Obligations.ProcessIgnoresStaleBytes := by
  intro s s' hidle hframe hbyte
  have hidle' : s'.phase = .idle := by rw [hframe]; exact hidle
  have hlen' : s'.len = s.len := by rw [hframe]
  have hagree := ((AgreeOnBuffered.mk hframe hbyte).count .attempts).scan s.len.toNat
  have hexec := exec_process_idle hidle
  have hexec' := exec_process_idle hidle'
  obtain ⟨t, _, ht, hsession, -⟩ := processEndsInOneOfThreeWays s hidle
  obtain ⟨t', _, ht', hsession', -⟩ := processEndsInOneOfThreeWays s' hidle'
  rw [State.count_len] at hexec hexec'
  rw [hlen'] at hexec'
  obtain rfl := Host.Outcome.next.inj (hexec.symm.trans ht)
  obtain rfl := Host.Outcome.next.inj (hexec'.symm.trans ht')
  exact ⟨_, _, hexec, hexec', hagree.frame, by rw [hsession], by rw [hsession'], hagree.byte⟩

/-! ### The bytes of a well-formed frame -/

@[simp] theorem length_frameBytes (id : Byte) (payload : List Byte) :
    (frameBytes id payload).length = payload.length + 3 := by
  simp [frameBytes]

section
variable (s : State)

theorem State.bytes_succ (n : Nat) : s.bytes (n + 1) = s.bytes n ++ [s.byte n] := by
  simp [State.bytes, List.range_succ]

theorem State.bytes_add_two (n : Nat) :
    s.bytes (n + 2) = s.byte 0 :: s.byte 1 :: (List.range n).map fun i => s.byte (i + 2) := by
  simp [State.bytes, List.range_succ_eq_map, Function.comp_def]

theorem State.length_buffered : s.buffered.length = s.len.toNat := s.length_bytes _

theorem State.take_bytes {m n : Nat} (h : m ≤ n) : (s.bytes n).take m = s.bytes m := by
  rw [State.bytes, ← List.map_take, List.take_range, Nat.min_eq_left h, State.bytes]

/-- R121: the checksum as `frameBytes` computes it. -/
theorem State.checksum_eq (n : Nat) :
    s.checksum n = BitVec.ofNat 8 (0x100 - ((s.bytes n).map BitVec.toNat).sum % 256) := by
  apply BitVec.eq_of_toNat_eq
  rw [State.toNat_checksum, State.byteSum_eq_sum, BitVec.toNat_ofNat, State.bytes, List.map_map]
  rfl

/-- R80: when the buffer begins with a well-formed frame. -/
theorem State.bytes_eq_frameBytes_iff (id : Byte) (payload : List Byte) :
    s.bytes (payload.length + 3) = frameBytes id payload ↔
      s.byte 0 = id ∧ s.byte 1 = BitVec.ofNat 8 (payload.length + 1) ∧
        ((List.range payload.length).map fun i => s.byte (i + 2)) = payload ∧
        s.checksum (payload.length + 2) = s.byte (payload.length + 2) := by
  have hsplit : s.bytes (payload.length + 3) = frameBytes id payload ↔
      s.bytes (payload.length + 2) = id :: BitVec.ofNat 8 (payload.length + 1) :: payload ∧
        s.checksum (payload.length + 2) = s.byte (payload.length + 2) := by
    rw [State.bytes_succ, frameBytes, List.append_singleton_inj]
    exact and_congr_right fun hbody => by rw [State.checksum_eq, hbody, eq_comm]
  rw [hsplit, State.bytes_add_two, List.cons_eq_cons, List.cons_eq_cons, and_assoc, and_assoc]

end

/-! ### Acceptance -/

section
variable {s : State} {id : Byte} {payload : List Byte} {e : Nat}

theorem State.verdict_of_frameBytes (hsync : syncHolds s.cfg.sync s.buffered = true) (hid : lookup s.cfg id = some e)
    (hsize : entrySize s.cfg e = payload.length + 3) (hmax : entrySize s.cfg e ≤ 255)
    (hfull : entrySize s.cfg e ≤ s.len.toNat) (hframe : s.bytes (payload.length + 3) = frameBytes id payload) :
    s.verdict = .valid e (payload.length + 3) := by
  obtain ⟨hzero, hone, -, hcs⟩ := (s.bytes_eq_frameBytes_iff id payload).1 hframe
  have hfield : frameSize (s.byte 1) = entrySize s.cfg e := by
    rw [hone, frameSize, Config.hdr, BitVec.toNat_ofNat]
    omega
  rw [← hsize]
  refine State.verdict_eq_valid (by omega) hsync (hzero ▸ hid) hfield hfull ?_
  rwa [hsize]

theorem entrySize_bounds {c : Configuration} {b : Byte} (hwf : c.failure = none) (hid : lookup c b = some e) :
    e < 256 ∧ entrySize c e ≤ 255 := by
  obtain ⟨d, hd, -, -⟩ := lookup_eq_some hid
  obtain ⟨-, -, hmax, -, he⟩ := Configuration.entry_bounds hwf hd
  exact ⟨he, (entrySize_of_getElem? hd).symm ▸ hmax⟩

end

/-- Settles O29: every check passes at a well-formed frame, so the verdict is `valid`; the entry writes neither `buf` nor
`len`. -/
theorem wellFormedFrameIsAccepted : Obligations.WellFormedFrameIsAccepted := by
  intro s id payload e hwf hidle hsync hid hsize hhead
  obtain ⟨he, hmax⟩ := entrySize_bounds hwf hid
  obtain ⟨d, hd, -, -⟩ := lookup_eq_some hid
  have hdsize : d.size = payload.length + 3 := (entrySize_of_getElem? hd).symm.trans hsize
  have hfits : payload.length + 3 ≤ s.len.toNat := by
    have hle := hhead.length_le
    rwa [length_frameBytes, State.length_buffered] at hle
  have hframe : s.bytes (payload.length + 3) = frameBytes id payload := by
    obtain ⟨rest, hrest⟩ := hhead
    rw [← s.take_bytes hfits, ← State.buffered, ← hrest, List.take_left' (length_frameBytes id payload)]
  have hverdict := State.verdict_of_frameBytes hsync hid hsize hmax (hsize ▸ hfits) hframe
  have hcurE : (BitVec.ofNat 8 e).toNat = e := Nat.mod_eq_of_lt he
  have hcurSize : (BitVec.ofNat 8 (payload.length + 3)).toNat = payload.length + 3 := Nat.mod_eq_of_lt (by omega)
  have hout := State.dispatchOutput_of_latches (State.dispatchEntry_phase (s.count .attempts) e (payload.length + 3))
    hd hcurE (hcurSize.trans hdsize.symm) (by omega)
  refine ⟨_, exec_process_valid hidle hverdict, rfl, hcurE, hcurSize, rfl, fun _ => rfl, ?_⟩
  rw [hout, hdsize]
  rfl

/-! ### A frame fed byte by byte -/

theorem execAll_append {is js : List Instr} {s t : State} (h : execAll is s = .next t) :
    execAll (is ++ js) s = execAll js t := by
  induction is generalizing s with
  | nil => cases h; rfl
  | cons i is ih =>
    rw [List.cons_append, execAll]
    rw [execAll] at h
    cases hi : exec i s with
    | next u => rw [hi] at h; exact ih h
    | fault f => rw [hi] at h; cases h
    | refused r => rw [hi] at h; cases h

theorem State.buffered_received {s : State} (h : s.len.toNat < 255) (b : Byte) :
    (s.received b).buffered = s.buffered ++ [b] := by
  rw [State.buffered, State.received_len_of_lt h, State.bytes_succ, State.received_byte_of_lt h]
  congr 1
  refine State.bytes_congr fun i hi => ?_
  rw [State.byte_received, if_neg (Nat.ne_of_lt h), if_neg (Nat.ne_of_lt hi)]

/-- The state reached from `s` by feeding the bytes `bs`, when no frame has been dispatched on the way. -/
structure FedWaiting (s : State) (bs : List Byte) (t : State) : Prop where
  reached : execAll (bs.flatMap fun b => [.append b, .process]) s = .next t
  cfg : t.cfg = s.cfg
  phase : t.phase = .idle
  buffered : t.buffered = bs
  dcnt : t.dcnt = s.dcnt

section
variable {s t v : State} {id b : Byte} {payload bs : List Byte} {e : Nat}

theorem FedWaiting.nil (hidle : s.phase = .idle) (hempty : s.len = 0) : FedWaiting s [] s :=
  ⟨rfl, rfl, hidle, by simp [State.buffered, State.bytes, hempty], rfl⟩

theorem FedWaiting.len (h : FedWaiting s bs t) : t.len.toNat = bs.length := by
  rw [← State.length_buffered, h.buffered]

theorem FedWaiting.reached_concat (h : FedWaiting s bs t) (hv : exec .process (t.received b) = .next v) :
    execAll ((bs ++ [b]).flatMap fun b => [.append b, .process]) s = .next v := by
  rw [List.flatMap_append, execAll_append h.reached]
  simp [execAll, exec_append_idle h.phase, hv]

/-- What stands in the buffer, and in the fields that the statement names, when the next byte has come and its PROCESS
has not. -/
theorem FedWaiting.received (h : FedWaiting s bs t) (hfits : bs.length < 255) (b : Byte) :
    (t.received b).cfg = s.cfg ∧ (t.received b).phase = .idle ∧ (t.received b).buffered = bs ++ [b] ∧
      (t.received b).dcnt = s.dcnt := by
  have hbuffered := State.buffered_received (h.len ▸ hfits) b
  rw [h.buffered] at hbuffered
  refine ⟨?_, ?_, hbuffered, ?_⟩ <;> rw [State.received_eq]
  · exact h.cfg
  · exact h.phase
  · exact h.dcnt

/-- A PROCESS that stops at the first head leaves the bytes fed as they are. -/
theorem FedWaiting.concat (h : FedWaiting s bs t) (hfits : bs.length < 255)
    (hstop : (t.received b).verdict = .insufficient ∨ (t.received b).verdict = .notFull) :
    ∃ v, FedWaiting s (bs ++ [b]) v := by
  obtain ⟨hcfg, hphase, hbuffered, hdcnt⟩ := h.received hfits b
  rcases hstop with hstop | hstop
  · exact ⟨_, h.reached_concat (exec_process_insufficient hphase hstop), hcfg, hphase, hbuffered, hdcnt⟩
  · exact ⟨_, h.reached_concat (exec_process_notFull hphase hstop), hcfg, hphase, hbuffered, hdcnt⟩

/-- R124: at a head that is the beginning of a well-formed frame, no check fails but that of completeness. -/
theorem State.verdict_of_incomplete {rest : List Byte} (hsync : s.cfg.sync = .always) (hid : lookup s.cfg id = some e)
    (hsize : entrySize s.cfg e = payload.length + 3) (hmax : entrySize s.cfg e ≤ 255) (hrest : rest ≠ [])
    (hframe : s.buffered ++ rest = frameBytes id payload) : s.verdict = .insufficient ∨ s.verdict = .notFull := by
  by_cases hlen : s.len.toNat ≤ 2
  · exact .inl (State.verdict_eq_insufficient hlen)
  have hbyte : ∀ i, i < s.len.toNat → (frameBytes id payload)[i]? = some (s.byte i) := by
    intro i hi
    rw [← hframe, List.getElem?_append_left (s.length_buffered.symm ▸ hi), State.buffered, State.getElem?_bytes,
      if_pos hi]
  have hzero : id = s.byte 0 := Option.some.inj (hbyte 0 (by omega))
  have hone : BitVec.ofNat 8 (payload.length + 1) = s.byte 1 := Option.some.inj (hbyte 1 (by omega))
  have hwait : s.len.toNat < entrySize s.cfg e := by
    have htotal := congrArg List.length hframe
    have hpos := List.length_pos_iff.2 hrest
    rw [List.length_append, State.length_buffered, length_frameBytes] at htotal
    omega
  have hfield : frameSize (s.byte 1) = entrySize s.cfg e := by
    rw [← hone, frameSize, Config.hdr, BitVec.toNat_ofNat]
    omega
  exact .inr (State.verdict_eq_notFull (not_le.1 hlen) (by rw [hsync]; rfl) (hzero ▸ hid) hfield hwait)

/-- A beginning of a well-formed frame, fed byte by byte, waits in the buffer. -/
theorem exists_fedWaiting {rest : List Byte} (hidle : s.phase = .idle) (hempty : s.len = 0) (hsync : s.cfg.sync = .always)
    (hid : lookup s.cfg id = some e) (hsize : entrySize s.cfg e = payload.length + 3) (hmax : entrySize s.cfg e ≤ 255)
    (hrest : rest ≠ []) (hframe : bs ++ rest = frameBytes id payload) : ∃ t, FedWaiting s bs t := by
  induction bs using List.reverseRecOn generalizing rest with
  | nil => exact ⟨s, .nil hidle hempty⟩
  | append_singleton bs b ih =>
    have htotal := congrArg List.length hframe
    simp only [List.length_append, List.length_singleton, length_frameBytes] at htotal
    obtain ⟨t, ht⟩ := ih (List.cons_ne_nil b rest) (by rw [← hframe, List.append_assoc, List.singleton_append])
    have hfits : bs.length < 255 := by omega
    obtain ⟨hcfg, -, hbuffered, -⟩ := ht.received hfits b
    rw [← hcfg] at hsync hid hsize hmax
    exact ht.concat hfits (State.verdict_of_incomplete hsync hid hsize hmax hrest (hbuffered ▸ hframe))

end

/-- Settles O30: every beginning of the frame waits; with its last byte the frame is whole, and its verdict is `valid`. -/
theorem fedFrameIsDispatchedAtItsLastByte : Obligations.FedFrameIsDispatchedAtItsLastByte := by
  intro s id payload e hwf hidle hempty hsync hid hsize
  obtain ⟨he, hmax⟩ := entrySize_bounds hwf hid
  refine ⟨fun bs rest hrest hframe => ?_, ?_⟩
  · obtain ⟨t, ht⟩ := exists_fedWaiting hidle hempty hsync hid hsize hmax hrest hframe
    exact ⟨t, ht.reached, ht.phase, ht.buffered, ht.dcnt⟩
  · obtain ⟨bs, b, hlast⟩ : ∃ bs b, frameBytes id payload = bs ++ [b] := ⟨_, _, rfl⟩
    obtain ⟨t, ht⟩ := exists_fedWaiting hidle hempty hsync hid hsize hmax (List.cons_ne_nil b []) hlast.symm
    have htotal := congrArg List.length hlast
    rw [length_frameBytes, List.length_append, List.length_singleton] at htotal
    have hfits : bs.length < 255 := by omega
    obtain ⟨hcfg, hphase, hbuffered, hdcnt⟩ := ht.received hfits b
    rw [← hlast] at hbuffered
    have hlen : (t.received b).len.toNat = payload.length + 3 := by
      rw [← State.length_buffered, hbuffered, length_frameBytes]
    rw [← hcfg] at hsync hid hsize hmax
    have hverdict := State.verdict_of_frameBytes (by rw [hsync]; rfl) hid hsize hmax (by rw [hsize, hlen])
      (by rwa [State.buffered, hlen] at hbuffered)
    have hreached := ht.reached_concat (exec_process_valid hphase hverdict)
    rw [← hlast] at hreached
    refine ⟨_, hreached, rfl, hbuffered, Nat.mod_eq_of_lt he, Nat.mod_eq_of_lt (by omega), ?_⟩
    rw [← hdcnt]
    rfl

end Sys2Proof.Machine
end

section
/-! The statements of spec/43_response.md: what SEND builds in the buffer (R170, R172 to R174), and that what it transmits
is a well-formed frame (R80). -/

namespace Sys2Proof.Machine

/-! ### The bytes that SEND writes -/

section
variable (s : State)

theorem State.byte_writeHeader (p i : Nat) :
    (s.writeHeader p).byte i =
      if i = 1 then BitVec.ofNat 8 (p + 1)
      else if i = 0 ∧ s.first = false then markReply (s.byte 0)
      else s.byte i := by
  have hone : ∀ j, (s.setByte 1 (BitVec.ofNat 8 (p + 1))).byte j = if j = 1 then BitVec.ofNat 8 (p + 1) else s.byte j :=
    fun j => State.byte_setByte s (by decide) j _
  unfold State.writeHeader
  cases hfirst : s.first with
  | true => simp [hone]
  | false =>
    rw [if_neg (by decide), State.byte_setByte _ (by decide)]
    by_cases hi : i = 0 <;> simp [hone, hi]

theorem State.byte_buildResponse {p : Nat} (hp : p ≤ 252) (i : Nat) :
    (s.buildResponse p).byte i =
      if i = p + 2 then (s.writeHeader p).checksum (p + 2) else (s.writeHeader p).byte i :=
  State.byte_setByte _ (by omega) i _

end

section
variable {s : State}

/-- The checksum byte lies above every byte that it covers. -/
theorem State.checksum_buildResponse {p : Nat} (hp : p ≤ 252) :
    (s.buildResponse p).checksum (p + 2) = (s.buildResponse p).byte (p + 2) := by
  rw [State.byte_buildResponse s hp, if_pos rfl]
  refine State.checksum_congr fun i hi => ?_
  rw [State.byte_buildResponse s hp i, if_neg (Nat.ne_of_lt hi)]

theorem firstAfterSend_eq (c : Configuration) (first : Bool) :
    firstAfterSend c first = if c.flagClearMode = .onSend then false else first := by
  cases h : c.flagClearMode <;> simp [firstAfterSend, h]

/-- SEND writes `buf`, `first` and the record of the sink only. -/
theorem State.sent_eq (s : State) (p : Nat) :
    s.sent p =
      { s with
        buf := (s.sent p).buf
        first := if s.cfg.flagClearMode = .onSend then false else s.first
        tx := s.tx ++ [(List.range (p + 3)).map (s.sent p).byte] } := by
  rw [State.sent, firstAfterSend_eq, State.buildResponse_eq]
  rfl

theorem State.byte_sent (s : State) (p i : Nat) : (s.sent p).byte i = (s.buildResponse p).byte i := rfl

theorem sendLengthLegal_eq_true {p : Byte} : sendLengthLegal p = true ↔ p.toNat ≤ 252 := decide_eq_true_iff

theorem exec_send_inside {p : Byte} (hs : s.phase = .dispatch) (hp : p.toNat ≤ 252) :
    exec (.send p) s = .next ((s.sent p.toNat).respond .ok 0) := by
  rw [exec, execSend, whenDispatch_dispatch hs, sendLengthLegal_eq_true.2 hp, whenInRange_true]
  rfl

end

/-- Settles O27: `State.sent` names the fields, and the header's and the checksum's own lemmas the bytes. -/
theorem sendBuildsAndTransmits : Obligations.SendBuildsAndTransmits := by
  intro p s hs hp
  have hbyte : ∀ i, i ≠ p.toNat + 2 → (s.buildResponse p.toNat).byte i = (s.writeHeader p.toNat).byte i := fun i hi =>
    (State.byte_buildResponse s hp i).trans (if_neg hi)
  refine ⟨_, exec_send_inside hs hp, ?_, ?_, ?_, ?_, fun i hzero hone hlast => ?_⟩
  · exact congrArg (State.respond · .ok 0) (s.sent_eq p.toNat)
  · change (s.buildResponse p.toNat).byte 0 = _
    rw [hbyte 0 (by omega), State.byte_writeHeader]
    cases s.first <;> rfl
  · change ((s.buildResponse p.toNat).byte 1).toNat = _
    rw [hbyte 1 (by omega), State.byte_writeHeader, if_pos rfl, BitVec.toNat_ofNat]
    omega
  · change ((s.buildResponse p.toNat).byte (p.toNat + 2)).toNat = _
    rw [← State.checksum_buildResponse hp, State.toNat_checksum, State.byteSum_eq_sum]
    rfl
  · change (s.buildResponse p.toNat).byte i = _
    rw [hbyte i hlast, State.byte_writeHeader, if_neg hone, if_neg (by simp [hzero])]

/-- Settles O28: the bytes that O27 gives are those of a frame, by `State.bytes_eq_frameBytes_iff`. -/
theorem sentFrameIsWellFormed : Obligations.SentFrameIsWellFormed := by
  intro p s hs hp
  obtain ⟨t, hexec, hframe, hzero, hone, hcs, hrest⟩ := sendBuildsAndTransmits p s hs hp
  have htx : t.tx = s.tx ++ [t.bytes (p.toNat + 3)] := congrArg State.tx hframe
  have hbytes := t.bytes_eq_frameBytes_iff (if s.first = true then s.byte 0 else s.byte 0 ||| 0x80)
    ((List.range p.toNat).map fun i => s.byte (i + 2))
  rw [List.length_map, List.length_range] at hbytes
  refine ⟨t, hexec, ?_⟩
  rw [htx, hbytes.2 ⟨hzero, ?_, ?_, ?_⟩]
  · rw [← hone, BitVec.ofNat_toNat, BitVec.setWidth_eq]
  · refine List.map_congr_left fun i hi => hrest _ (by omega) (by omega) ?_
    have hlt := List.mem_range.1 hi
    omega
  · apply BitVec.eq_of_toNat_eq
    rw [State.toNat_checksum, State.byteSum_eq_sum, hcs]

end Sys2Proof.Machine
end

section
/-! The statements about every instruction: which of them writes a piece of state (R34 to R43, R74, R99), what each is
answered (R95, R96, R158, R202), and the laws of the counters (R42, R193). First what a PROCESS performed in IDLE leaves,
in the form in which they use it. -/

namespace Sys2Proof.Machine

/-! ### What a PROCESS performed in IDLE leaves -/

section
variable {s : State}

/-- What O19 says of the next state, it says of the state that `ExecDid.process` names. -/
theorem eq_of_exec_process (hidle : s.phase = .idle) {t : State} (h : exec .process s = .next t) :
    (s.count .attempts).scan s.len.toNat = t :=
  Host.Outcome.next.inj ((exec_process_idle hidle).symm.trans h)

/-- A PROCESS writes neither the configuration, nor `first`, nor the counters of HDONE, nor the record of the TX sink. -/
theorem processed_frame (hidle : s.phase = .idle) {t : State} (ht : (s.count .attempts).scan s.len.toNat = t) :
    t = { s with
      buf := t.buf, len := t.len, phase := t.phase, curE := t.curE, curSize := t.curSize
      cnt := { t.cnt with hDone := s.cnt.hDone, nonemptyAfter := s.cnt.nonemptyAfter }
      dcnt := t.dcnt, ports := s.ports.set s.turn none, outstanding := t.outstanding, responses := t.responses,
      trace := t.trace } := by
  obtain ⟨t', ds, hexec, hframe, -, -, -, -, hcnt, -⟩ := processEndsInOneOfThreeWays s hidle
  obtain rfl := ht.symm.trans (eq_of_exec_process hidle hexec)
  have hdone : t.cnt.hDone = s.cnt.hDone := by rw [hcnt]
  have hafter : t.cnt.nonemptyAfter = s.cnt.nonemptyAfter := by rw [hcnt]
  rw [← hdone, ← hafter]
  exact hframe

/-- A PROCESS writes buffered bytes only. -/
theorem processed_byte (hidle : s.phase = .idle) {t : State} (ht : (s.count .attempts).scan s.len.toNat = t) {i : Nat}
    (hi : s.len.toNat ≤ i) : t.byte i = s.byte i := by
  obtain ⟨t', ds, hexec, -, -, -, hlen, hbyte, -⟩ := processEndsInOneOfThreeWays s hidle
  obtain rfl := ht.symm.trans (eq_of_exec_process hidle hexec)
  rw [hbyte i, if_neg (by omega), if_neg (by omega)]

/-- R132, R158: a PROCESS that dispatches is outstanding, any other is answered. -/
theorem processed_answer (hidle : s.phase = .idle) {t : State} (ht : (s.count .attempts).scan s.len.toNat = t) :
    (t.phase = .idle ∧ t.responses = s.responses ++ [⟨s.turn, .ok, 0⟩] ∧ t.outstanding = s.outstanding) ∨
      (t.phase = .dispatch ∧ t.responses = s.responses ∧ t.outstanding = some s.turn) := by
  obtain ⟨t', ds, hexec, -, -, -, -, -, -, hend⟩ := processEndsInOneOfThreeWays s hidle
  obtain rfl := ht.symm.trans (eq_of_exec_process hidle hexec)
  rcases hend with ⟨-, -, hphase, hresp, -, -, -, hout, -⟩ | ⟨-, -, -, hphase, hresp, -, -, -, hout, -⟩ |
      ⟨e, -, -, -, -, -, -, hphase, hresp, -, -, -, hout, -⟩
  · exact .inl ⟨hphase, hresp, hout⟩
  · exact .inl ⟨hphase, hresp, hout⟩
  · exact .inr ⟨hphase, hresp, hout⟩

end

/-! ### The configuration -/

section
variable {i : Instr} {s t : State}

/-- What no instruction writes. -/
theorem exec_frame (h : exec i s = .next t) :
    t = { t with
      cfg := s.cfg, resetLine := s.resetLine, session := s.session, turn := s.turn, inputs := s.inputs } := by
  cases exec_did h with
  | held => rfl
  | answered => rfl
  | append => rw [State.appended_eq]; rfl
  | process hidle => rw [processed_frame hidle rfl]
  | bufWr => rfl
  | send => rw [State.sent_eq]; rfl
  | hdone => rw [State.dispatchReturn_eq]

theorem exec_cfg (h : exec i s = .next t) : t.cfg = s.cfg := by rw [exec_frame h]

theorem performWord_cfg {w : Word} (h : performWord w s = .next t) : t.cfg = s.cfg := by
  rcases performWord_cases w s with ⟨i, -, hexec⟩ | ⟨_, -, hreject⟩
  · exact exec_cfg (hexec.symm.trans h)
  · rw [hreject] at h
    cases h
    rfl

/-- Taking an input writes the ports, the inputs and the turn, or it is a reset. -/
theorem State.fetch_frame (s : State) :
    s.fetch.1 = { s with ports := s.fetch.1.ports, inputs := s.fetch.1.inputs, turn := s.fetch.1.turn } ∨
      ∃ r line, s.fetch.1 = State.applyReset { s with inputs := r } line := by
  rcases s.fetch_cases with ⟨-, hf⟩ | ⟨a, w, r, -, hf⟩ | ⟨a, w, r, -, -, -, hf⟩ | ⟨a, r, -, -, hf⟩ | ⟨r, -, hf⟩ |
      ⟨r, -, -, hf⟩ | ⟨r, -, -, hf⟩ <;> rw [hf]
  · exact .inl rfl
  · rcases State.issue_cases { s with inputs := r } a w with ⟨-, heq⟩ | ⟨-, -, -, heq⟩ <;> rw [heq] <;> exact .inl rfl
  · exact .inl rfl
  · exact .inl rfl
  · exact .inr ⟨r, true, rfl⟩
  · exact .inr ⟨r, false, rfl⟩
  · exact .inl rfl

theorem State.fetch_cfg (s : State) : s.fetch.1.cfg = s.cfg := by
  rcases s.fetch_frame with hf | ⟨r, line, hf⟩ <;> rw [hf]
  rfl

theorem step_cfg (h : step s = .next t) : t.cfg = s.cfg := by
  have hfetch := s.fetch_cfg
  obtain ⟨-, hf | ⟨u, w, hf, hw⟩⟩ := step_next h <;> rw [hf] at hfetch
  · exact hfetch
  · exact (performWord_cfg hw).trans hfetch

end

/-- Settles O38: neither taking an input nor performing a request writes the configuration. -/
theorem everyStepKeepsTheConfiguration : Obligations.EveryStepKeepsTheConfiguration := fun _ _ => step_cfg

/-! ### `first`, the phase, `len` and the buffer -/

/-- Settles O39: SEND and HDONE alone write `first`, each under its own mode, and what they write is 0. -/
theorem firstFlagIsOnlyCleared : Obligations.FirstFlagIsOnlyCleared := by
  intro i s t h hne
  cases exec_did h with
  | held => exact absurd rfl hne
  | answered => exact absurd rfl hne
  | append => rw [State.appended_eq] at hne; exact absurd rfl hne
  | process hidle => rw [processed_frame hidle rfl] at hne; exact absurd rfl hne
  | bufWr => exact absurd rfl hne
  | @send p _ hs =>
    have hfirst : ((s.sent p.toNat).respond .ok 0).first = if s.cfg.flagClearMode = .onSend then false else s.first := by
      rw [State.sent_eq]; rfl
    rw [hfirst] at hne ⊢
    split_ifs at hne ⊢ with hmode
    · exact ⟨Bool.of_not_eq_false hne.symm, rfl, hs, .inr ⟨⟨p, rfl⟩, hmode⟩⟩
    · exact absurd rfl hne
  | @hdone x _ hs =>
    have hfirst : s.dispatchReturn.first = if s.cfg.flagClearMode = .afterDispatch then false else s.first := by
      rw [State.dispatchReturn_eq, firstAfterDispatch_eq]
    rw [hfirst] at hne ⊢
    split_ifs at hne ⊢ with hmode
    · exact ⟨Bool.of_not_eq_false hne.symm, rfl, hs, .inl ⟨⟨x, rfl⟩, hmode⟩⟩
    · exact absurd rfl hne

/-- Settles O40: the dispatch entry at the end of a scan and the return in HDONE alone write the phase. -/
theorem onlyProcessEntersAndHdoneLeavesDispatch : Obligations.OnlyProcessEntersAndHdoneLeavesDispatch := by
  intro i s t h hne
  cases exec_did h with
  | held => exact absurd rfl hne
  | answered => exact absurd rfl hne
  | append => rw [State.appended_eq] at hne; exact absurd rfl hne
  | process hidle =>
    rcases processed_answer hidle rfl with ⟨hphase, -⟩ | ⟨hphase, -⟩
    · exact absurd (hphase.trans hidle.symm) hne
    · exact .inl ⟨hidle, hphase, rfl⟩
  | bufWr => exact absurd rfl hne
  | send => rw [State.sent_eq] at hne; exact absurd rfl hne
  | @hdone x _ hs => exact .inr ⟨hs, by rw [State.dispatchReturn_eq], x, rfl⟩

/-- Settles O41: each writer's own law of the bytes says at which index it writes. -/
theorem writersOfLenAndBuffer : Obligations.WritersOfLenAndBuffer := by
  intro i s t h
  have hcap : s.len.toNat < 256 := s.len.isLt
  cases exec_did h with
  | held => exact ⟨fun hne => absurd rfl hne, fun a hne => absurd rfl hne⟩
  | answered => exact ⟨fun hne => absurd rfl hne, fun a hne => absurd rfl hne⟩
  | @append b _ =>
    refine ⟨fun _ => .inl ⟨b, rfl⟩, fun a hne => ⟨?_, .inl ⟨b, rfl⟩⟩⟩
    by_contra hout
    refine hne ((s.byte_received b a).trans (if_neg ?_))
    split_ifs <;> omega
  | process hidle =>
    refine ⟨fun _ => .inr (.inl rfl), fun a hne => ⟨?_, .inr (.inl rfl)⟩⟩
    by_contra hout
    exact hne (processed_byte hidle rfl (by omega))
  | @bufWr x d _ hs hx =>
    refine ⟨fun hne => absurd rfl hne, fun a hne => ⟨?_, .inr (.inr (.inl ⟨x, d, rfl⟩))⟩⟩
    by_contra hout
    exact hne ((State.byte_setByte s (by omega) a d).trans (if_neg (by omega)))
  | @send p _ hs hp =>
    have hlen : ((s.sent p.toNat).respond .ok 0).len = s.len := by rw [State.sent_eq]; rfl
    refine ⟨fun hne => absurd hlen hne, fun a hne => ⟨?_, .inr (.inr (.inr (.inl ⟨p, rfl⟩)))⟩⟩
    by_contra hout
    refine hne ((State.byte_buildResponse s hp a).trans ?_)
    rw [if_neg (by omega), State.byte_writeHeader, if_neg (by omega), if_neg (by omega)]
  | @hdone x _ hs =>
    refine ⟨fun _ => .inr (.inr ⟨x, rfl⟩), fun a hne => ?_⟩
    rw [State.byte_dispatchReturn] at hne
    split_ifs at hne with hmoved
    · obtain ⟨hkeep, hin⟩ := hmoved
      exact ⟨by omega, .inr (.inr (.inr (.inr ⟨⟨x, rfl⟩, hkeep⟩)))⟩
    · exact absurd rfl hne

/-! ### The counters -/

/-- Settles O42: PROCESS and HDONE alone count, and neither counts on the other's counters. -/
theorem writersOfTheCounters : Obligations.WritersOfTheCounters := by
  intro i s t h
  cases exec_did h with
  | held => exact ⟨fun _ => ⟨rfl, rfl, rfl, rfl, rfl, rfl, rfl⟩, fun _ => ⟨rfl, rfl⟩⟩
  | answered => exact ⟨fun _ => ⟨rfl, rfl, rfl, rfl, rfl, rfl, rfl⟩, fun _ => ⟨rfl, rfl⟩⟩
  | append =>
    rw [State.appended_eq]
    exact ⟨fun _ => ⟨rfl, rfl, rfl, rfl, rfl, rfl, rfl⟩, fun _ => ⟨rfl, rfl⟩⟩
  | process hidle =>
    refine ⟨fun hno => ?_, fun _ => ?_⟩
    · rcases hno with hno | hno
      · exact absurd rfl hno
      · rw [hidle] at hno; cases hno
    · rw [processed_frame hidle rfl]
      exact ⟨rfl, rfl⟩
  | bufWr => exact ⟨fun _ => ⟨rfl, rfl, rfl, rfl, rfl, rfl, rfl⟩, fun _ => ⟨rfl, rfl⟩⟩
  | send =>
    rw [State.sent_eq]
    exact ⟨fun _ => ⟨rfl, rfl, rfl, rfl, rfl, rfl, rfl⟩, fun _ => ⟨rfl, rfl⟩⟩
  | @hdone x _ hs =>
    rw [State.dispatchReturn_eq, Counters.afterReturn_eq]
    refine ⟨fun _ => ⟨rfl, rfl, rfl, rfl, rfl, rfl, rfl⟩, fun hno => ?_⟩
    rcases hno with hno | hno
    · exact absurd rfl (hno x)
    · rw [hs] at hno; cases hno

section
variable {s t : State}

theorem State.fetch_cnt (s : State) : s.fetch.1.cnt = s.cnt ∨ s.fetch.1.cnt = Counters.zero := by
  rcases s.fetch_frame with hf | ⟨r, line, hf⟩ <;> rw [hf]
  · exact .inl rfl
  · exact .inr rfl

/-- R193 (c): an HDONE that counts trailing bytes counts the dispatch too. -/
theorem exec_trailing_le {i : Instr} (h : exec i s = .next t) (hwrap : s.cnt.hDone ≠ BitVec.allOnes 32)
    (hle : s.cnt.nonemptyAfter ≤ s.cnt.hDone) : t.cnt.nonemptyAfter ≤ t.cnt.hDone := by
  by_cases hno : (∀ st, i ≠ .hdone st) ∨ s.phase = .idle
  · obtain ⟨hdone, hafter⟩ := (writersOfTheCounters i s t h).2 hno
    rw [hdone, hafter]
    exact hle
  · obtain ⟨hhdone, hphase⟩ := not_or.1 hno
    obtain ⟨st, rfl⟩ : ∃ st, i = .hdone st := by simpa using hhdone
    have hs : s.phase = .dispatch := by
      cases hs : s.phase with
      | idle => exact absurd hs hphase
      | dispatch => rfl
    obtain rfl := Host.Outcome.next.inj ((exec_hdone_dispatch hs st).symm.trans h)
    rw [State.dispatchReturn_eq, Counters.afterReturn_eq]
    change (if _ then s.cnt.nonemptyAfter + 1 else s.cnt.nonemptyAfter) ≤ s.cnt.hDone + 1
    have hmax : s.cnt.hDone.toNat ≠ 2 ^ 32 - 1 := fun heq => hwrap (BitVec.eq_of_toNat_eq heq)
    split_ifs <;> bv_omega

theorem performWord_trailing_le {w : Word} (h : performWord w s = .next t) (hwrap : s.cnt.hDone ≠ BitVec.allOnes 32)
    (hle : s.cnt.nonemptyAfter ≤ s.cnt.hDone) : t.cnt.nonemptyAfter ≤ t.cnt.hDone := by
  rcases performWord_cases w s with ⟨i, -, hexec⟩ | ⟨_, -, hreject⟩
  · exact exec_trailing_le (hexec.symm.trans h) hwrap hle
  · rw [hreject] at h
    cases h
    exact hle

end

/-- Settles O44: taking an input leaves the counters or resets them all, and a request keeps the order. -/
theorem trailingCountNeverExceedsDispatches : Obligations.TrailingCountNeverExceedsDispatches := by
  intro s t hstep hwrap hle
  have hfetch : s.fetch.1.cnt.hDone ≠ BitVec.allOnes 32 ∧ s.fetch.1.cnt.nonemptyAfter ≤ s.fetch.1.cnt.hDone := by
    rcases s.fetch_cnt with hcnt | hcnt <;> rw [hcnt]
    · exact ⟨hwrap, hle⟩
    · decide
  obtain ⟨-, hf | ⟨u, w, hf, hw⟩⟩ := step_next hstep <;> rw [hf] at hfetch
  · exact hfetch.2
  · exact performWord_trailing_le hw hfetch.1 hfetch.2

/-! ### Answers -/

/-- Settles O43: each thing that an instruction can do has its one place among the cases. -/
theorem everyRequestIsAnsweredOnce : Obligations.EveryRequestIsAnsweredOnce := by
  intro i s t h
  cases exec_did h with
  | held hs hi => exact .inl ⟨rfl, hs, hi⟩
  | answered st d _ happend hprocess hhdone =>
    refine .inr ⟨rfl, .inr (.inr ⟨?_, ?_, st, d, rfl, rfl⟩)⟩
    · rintro (⟨b, rfl⟩ | rfl)
      · exact absurd rfl (happend b)
      · exact absurd rfl hprocess
    · rintro ⟨x, rfl⟩
      cases hs : s.phase with
      | idle => rfl
      | dispatch => exact absurd rfl (hhdone hs x)
  | append hidle =>
    rw [State.appended_eq]
    exact .inr ⟨rfl, .inr (.inr ⟨fun _ => ⟨hidle, hidle⟩, nofun, _, _, rfl, rfl⟩)⟩
  | process hidle =>
    have hports : ((s.count .attempts).scan s.len.toNat).ports = s.ports.set s.turn none := by
      rw [processed_frame hidle rfl]
    refine .inr ⟨hports, ?_⟩
    rcases processed_answer hidle rfl with ⟨hphase, hresp, hout⟩ | ⟨hphase, hresp, hout⟩
    · exact .inr (.inr ⟨fun _ => ⟨hidle, hphase⟩, nofun, _, _, hresp, hout⟩)
    · exact .inl ⟨rfl, hidle, hphase, hresp, hout⟩
  | bufWr => exact .inr ⟨rfl, .inr (.inr ⟨by simp, nofun, _, _, rfl, rfl⟩)⟩
  | send =>
    rw [State.sent_eq]
    exact .inr ⟨rfl, .inr (.inr ⟨by simp, nofun, _, _, rfl, rfl⟩)⟩
  | @hdone x _ hs =>
    rw [State.dispatchReturn_eq]
    exact .inr ⟨rfl, .inr (.inl ⟨⟨x, rfl⟩, hs, rfl, rfl⟩)⟩

/-- When the first answer given is `OK`, and one answer was given in all, that answer is `OK`. -/
theorem ok_of_answers_eq {rs rest : List Delivery} {a b : Agent} {st : Status} {d d' : Word}
    (h : rs ++ ⟨a, .ok, d⟩ :: rest = rs ++ [⟨b, st, d'⟩]) : st = .ok := by
  cases List.append_cancel_left h
  rfl

/-- Settles O47: an answer other than `OK` is that of `ExecDid.answered`; every other way to answer begins with `OK`. -/
theorem erroneousRequestChangesNothing : Obligations.ErroneousRequestChangesNothing := by
  intro i s t st d h hresp hst
  cases exec_did h with
  | held => simp at hresp
  | answered st' d' hd =>
    cases List.append_cancel_left hresp
    obtain rfl := hd hst
    exact ⟨rfl, rfl⟩
  | append =>
    rw [State.appended_eq] at hresp
    exact absurd (ok_of_answers_eq hresp) hst
  | process hidle =>
    rcases processed_answer hidle rfl with ⟨-, hanswer, -⟩ | ⟨-, hanswer, -⟩ <;> rw [hanswer] at hresp
    · exact absurd (ok_of_answers_eq hresp) hst
    · simp at hresp
  | bufWr => exact absurd (ok_of_answers_eq hresp) hst
  | send =>
    rw [State.sent_eq] at hresp
    exact absurd (ok_of_answers_eq hresp) hst
  | hdone =>
    rw [State.dispatchReturn_eq] at hresp
    exact absurd (ok_of_answers_eq hresp) hst

/-! ### Outputs -/

/-- The dispatch output is a function of these four. -/
theorem State.dispatchOutput_congr {s t : State} (hcfg : t.cfg = s.cfg) (hphase : t.phase = s.phase)
    (hcurE : t.curE = s.curE) (hcurSize : t.curSize = s.curSize) : t.dispatchOutput = s.dispatchOutput := by
  rw [State.dispatchOutput, State.dispatchOutput, hcfg, hphase, hcurE, hcurSize]

/-- Settles O46: in DISPATCH no instruction but HDONE writes what the output is made of, and HDONE leaves DISPATCH. -/
theorem dispatchOutputHoldsSteady : Obligations.DispatchOutputHoldsSteady := by
  intro i s t h hs ht
  have hbusy : s.phase ≠ .idle := by simp [hs]
  cases exec_did h with
  | held => rfl
  | answered => rfl
  | append hidle => exact absurd hidle hbusy
  | process hidle => exact absurd hidle hbusy
  | bufWr => rfl
  | send =>
    rw [State.sent_eq]
    exact State.dispatchOutput_congr rfl rfl rfl rfl
  | hdone => rw [State.dispatchReturn_eq] at ht; cases ht

/-- Settles O48: SEND alone writes the record of the sink, by one frame of its length. -/
theorem onlySendTransmits : Obligations.OnlySendTransmits := by
  intro i s t h hne
  cases exec_did h with
  | held => exact absurd rfl hne
  | answered => exact absurd rfl hne
  | append => rw [State.appended_eq] at hne; exact absurd rfl hne
  | process hidle => rw [processed_frame hidle rfl] at hne; exact absurd rfl hne
  | bufWr => exact absurd rfl hne
  | @send p _ hs hp =>
    refine ⟨hs, p, _, rfl, hp, ?_, by rw [State.sent_eq]; rfl⟩
    simp
  | hdone => rw [State.dispatchReturn_eq] at hne; exact absurd rfl hne

end Sys2Proof.Machine
end

section
/-! The statements of spec/70_reset_and_hazards.md about time (R249): how long a request stays pending, that a fair run
performs what the FSV accepts, and that fairness can be kept from every state. First what one step can do to the ports and
the inputs. -/

namespace Sys2Proof.Machine

/-! ### What one step can do -/

/-- What a step did to the ports, the inputs and the reset line. -/
inductive StepDid (s : State) : State → Prop where
  | issued {a : Agent} {w : Word} {r : List Input} (hin : s.inputs = .issue a w :: r) :
      StepDid s (State.issue { s with inputs := r } a w)
  | performed {a : Agent} {w : Word} {t : State} (hnext : s.performsNext a w) (hports : t.ports = s.ports.set a none)
      (hline : t.resetLine = s.resetLine) (hinputs : t.inputs = s.inputs.tail) : StepDid s t
  /-- nothing to take, nothing pending where it was looked for, a request held, or a line released that was not up -/
  | passed {t : State} (hperform : ∀ a w, ¬ s.performsNext a w) (hreset : ¬ s.resetsNext) (hports : t.ports = s.ports)
      (hline : t.resetLine = s.resetLine) (hinputs : t.inputs = s.inputs.tail) : StepDid s t
  | reset {t : State} (hreset : s.resetsNext) (hports : t.ports = Ports.empty) (hinputs : t.inputs = s.inputs.tail) :
      StepDid s t

section
variable {s t : State} {a : Agent} {w : Word}

theorem State.nextInput_eq {i : Input} {r : List Input} (hin : s.inputs = i :: r) : s.nextInput = some i := by
  rw [State.nextInput, hin]
  rfl

/-- A step that takes up a pending request performs it if the FSV accepts it, and else passes it over. -/
theorem StepDid.of_taken {r : List Input} (hin : s.inputs = .perform a :: r) (hline : s.resetLine = false)
    (hport : s.ports.get a = some w) (h : performWord w { s with inputs := r, turn := a } = .next t) : StepDid s t := by
  obtain ⟨hinputs, hline', hports⟩ := performWord_ports (s := { s with inputs := r, turn := a }) hline h
  have htail : t.inputs = s.inputs.tail := by rw [hinputs, hin]; rfl
  have hnext := State.nextInput_eq hin
  have hacc : State.accepts { s with inputs := r, turn := a } w = s.accepts w := rfl
  rw [hacc] at hports
  split_ifs at hports with hw
  · exact .performed ⟨hnext, hport, hw⟩ hports hline' htail
  · refine .passed ?_ (by simp [State.resetsNext, hnext]) (by rw [hports]) hline' htail
    rintro b v ⟨hnext', hport', hv⟩
    cases hnext.symm.trans hnext'
    obtain rfl := Option.some.inj (hport.symm.trans hport')
    exact hw hv

theorem step_did (h : step s = .next t) : StepDid s t := by
  obtain ⟨hwf, -⟩ := step_next h
  rcases s.fetch_cases with ⟨hin, hf⟩ | ⟨a, w, r, hin, hf⟩ | ⟨a, w, r, hin, hline, hport, hf⟩ | ⟨a, r, hin, hdrop, hf⟩ |
      ⟨r, hin, hf⟩ | ⟨r, hin, hline, hf⟩ | ⟨r, hin, hline, hf⟩
  case inr.inr.inl => exact .of_taken hin hline hport ((step_of_fetch_some hwf hf).symm.trans h)
  all_goals obtain rfl := Host.Outcome.next.inj ((step_of_fetch_none hwf hf).symm.trans h)
  · have hnext : s.nextInput = none := by rw [State.nextInput, hin]; rfl
    exact .passed (by simp [State.performsNext, hnext]) (by simp [State.resetsNext, hnext]) rfl rfl (by rw [hin]; rfl)
  · exact .issued hin
  · have hnext := State.nextInput_eq hin
    refine .passed ?_ (by simp [State.resetsNext, hnext]) rfl rfl (by rw [hin]; rfl)
    rintro b v ⟨hnext', hport, hacc⟩
    cases hnext.symm.trans hnext'
    obtain ⟨hline, -⟩ := State.accepts_eq_true.1 hacc
    simp [hline, hport] at hdrop
  · exact .reset (.inl (State.nextInput_eq hin)) rfl (by rw [hin]; rfl)
  · exact .reset (.inr ⟨State.nextInput_eq hin, hline⟩) rfl (by rw [hin]; rfl)
  · have hnext := State.nextInput_eq hin
    exact .passed (by simp [State.performsNext, hnext]) (by simp [State.resetsNext, hnext, hline]) rfl rfl
      (by rw [hin]; rfl)

/-- A step takes the first of its inputs. -/
theorem step_inputs (h : step s = .next t) : t.inputs = s.inputs.tail := by
  cases step_did h with
  | @issued a w r hin =>
    rw [hin]
    rcases State.issue_cases { s with inputs := r } a w with ⟨-, heq⟩ | ⟨-, -, -, heq⟩ <;> rw [heq] <;> rfl
  | performed _ _ _ hinputs => exact hinputs
  | passed _ _ _ _ hinputs => exact hinputs
  | reset _ _ hinputs => exact hinputs

/-- A request performed frees its own port, and no other. -/
theorem step_ports_of_performsNext (h : step s = .next t) (hnext : s.performsNext a w) :
    t.ports = s.ports.set a none := by
  have hinput : s.nextInput = some (.perform a) := hnext.1
  cases step_did h with
  | issued hin => cases (State.nextInput_eq hin).symm.trans hinput
  | performed hnext' hports =>
    cases hnext'.1.symm.trans hinput
    exact hports
  | passed hperform => exact absurd hnext (hperform a w)
  | reset hreset => simp [State.resetsNext, hinput] at hreset

/-- Nothing but a reset touches the line. -/
theorem step_resetLine (h : step s = .next t) (hreset : ¬ s.resetsNext) : t.resetLine = s.resetLine := by
  cases step_did h with
  | @issued a w r hin =>
    rcases State.issue_cases { s with inputs := r } a w with ⟨-, heq⟩ | ⟨-, -, -, heq⟩ <;> rw [heq]
  | performed _ _ hline => exact hline
  | passed _ _ _ hline => exact hline
  | reset hreset' => exact absurd hreset' hreset

end

/-- Settles O49: an issue finds its port empty, a request performed frees its own port, and a reset frees all. -/
theorem pendingRequestStaysUntilPerformedOrReset : Obligations.PendingRequestStaysUntilPerformedOrReset := by
  intro s t a w h hport
  cases step_did h with
  | @issued b v r hin =>
    refine .inr (.inr ⟨?_, ?_, ?_⟩)
    · simp [State.performsNext, State.nextInput_eq hin]
    · simp [State.resetsNext, State.nextInput_eq hin]
    · rcases State.issue_cases { s with inputs := r } b v with ⟨-, heq⟩ | ⟨-, hempty, -, heq⟩ <;> rw [heq]
      · exact hport
      · have hba : a ≠ b := by
          rintro rfl
          cases hport.symm.trans hempty
        rw [Ports.get_set, if_neg hba]
        exact hport
  | @performed b v _ hnext hports =>
    rw [hports, Ports.get_set]
    by_cases hab : a = b
    · subst hab
      obtain ⟨hin, hport', hacc⟩ := hnext
      obtain rfl := Option.some.inj (hport.symm.trans hport')
      exact .inl ⟨⟨hin, hport, hacc⟩, if_pos rfl⟩
    · obtain ⟨hin, -, -⟩ := hnext
      refine .inr (.inr ⟨?_, ?_, (if_neg hab).trans hport⟩)
      · rintro ⟨hin', -⟩
        cases hin.symm.trans hin'
        exact hab rfl
      · simp [State.resetsNext, hin]
  | passed hperform hreset hports => exact .inr (.inr ⟨hperform a w, hreset, hports ▸ hport⟩)
  | reset hreset hports => exact .inr (.inl ⟨hreset, hports ▸ Ports.get_empty a⟩)

/-! ### A request pending in a run -/

section
variable {σ : Nat → List Input} {ρ : Nat → State} {n m : Nat} {a : Agent} {w : Word}

/-- The step from state `m` of the run performs agent `a`'s request `w`, or resets. -/
def servedAt (σ : Nat → List Input) (ρ : Nat → State) (a : Agent) (w : Word) (m : Nat) : Prop :=
  ((ρ m).given (σ m)).performsNext a w ∨ ((ρ m).given (σ m)).resetsNext

theorem port_empty_of_servedAt (hrun : isRun σ ρ) (hport : (ρ m).ports.get a = some w) (h : servedAt σ ρ a w m) :
    (ρ (m + 1)).ports.get a = none := by
  rcases pendingRequestStaysUntilPerformedOrReset _ _ a w (hrun m) hport with ⟨-, hnone⟩ | ⟨-, hnone⟩ | ⟨hperf, hreset, -⟩
  · exact hnone
  · exact hnone
  · exact absurd h (not_or.2 ⟨hperf, hreset⟩)

/-- R95: until it is served a pending request stays on its port. -/
theorem pending_until_served (hrun : isRun σ ρ) (hport : (ρ n).ports.get a = some w) (hnm : n ≤ m)
    (h : ∀ k, n ≤ k → k < m → ¬ servedAt σ ρ a w k) : (ρ m).ports.get a = some w := by
  induction m, hnm using Nat.le_induction with
  | base => exact hport
  | succ m hnm ih =>
    have hpending := ih fun k hnk hkm => h k hnk (Nat.lt_succ_of_lt hkm)
    have hunserved := h m hnm (Nat.lt_succ_self m)
    rcases pendingRequestStaysUntilPerformedOrReset _ _ a w (hrun m) hpending with ⟨hperf, -⟩ | ⟨hreset, -⟩ |
        ⟨-, -, hstays⟩
    · exact absurd (.inl hperf) hunserved
    · exact absurd (.inr hreset) hunserved
    · exact hstays

/-- R230: until a request is served, no reset comes. -/
theorem resetLine_until_served (hrun : isRun σ ρ) (hnm : n ≤ m) (h : ∀ k, n ≤ k → k < m → ¬ servedAt σ ρ a w k) :
    (ρ m).resetLine = (ρ n).resetLine := by
  induction m, hnm using Nat.le_induction with
  | base => rfl
  | succ m hnm ih =>
    have hreset := (not_or.1 (h m hnm (Nat.lt_succ_self m))).2
    exact (step_resetLine (hrun m) hreset).trans (ih fun k hnk hkm => h k hnk (Nat.lt_succ_of_lt hkm))

/-- In a fair run a request is served if the FSV, its reset line left alone, comes again and again to a phase that does
not hold the request. -/
theorem exists_servedAt (hrun : isRun σ ρ) (hfair : fair σ ρ) (hport : (ρ n).ports.get a = some w)
    (hline : (ρ n).resetLine = false)
    (hidle : waitsForIdle w = true → ∀ m, n ≤ m → ∃ k, m ≤ k ∧ (ρ k).phase = .idle) :
    ∃ m, n ≤ m ∧ servedAt σ ρ a w m := by
  by_contra hnever
  have hunserved : ∀ k, n ≤ k → ¬ servedAt σ ρ a w k := fun k hnk hk => hnever ⟨k, hnk, hk⟩
  have hup : ∀ k, n ≤ k → (ρ k).resetLine = false := fun k hnk =>
    (resetLine_until_served hrun hnk fun j hnj _ => hunserved j hnj).trans hline
  refine hnever (hfair n a w hport fun m hnm => ?_)
  cases hw : waitsForIdle w with
  | true =>
    obtain ⟨k, hmk, hk⟩ := hidle hw m hnm
    exact ⟨k, hmk, State.accepts_eq_true.2 ⟨hup k (hnm.trans hmk), fun _ => hk⟩⟩
  | false => exact ⟨m, le_refl m, State.accepts_eq_true.2 ⟨hup m hnm, by simp [hw]⟩⟩

end

/-- Settles O50: the first step that serves the request is the one sought. -/
theorem fairRunsPerformWhatThePhaseAccepts : Obligations.FairRunsPerformWhatThePhaseAccepts := by
  classical
  intro σ ρ hrun hfair n a w hport hline hidle
  have hserved := exists_servedAt hrun hfair hport hline hidle
  obtain ⟨hnm, hfound⟩ := Nat.find_spec hserved
  have hpending : ∀ k, n ≤ k → k ≤ Nat.find hserved → (ρ k).ports.get a = some w := fun k hnk hkm =>
    pending_until_served hrun hport hnk fun j hnj hjk hj => Nat.find_min hserved (hjk.trans_le hkm) ⟨hnj, hj⟩
  exact ⟨_, hnm, hpending, port_empty_of_servedAt hrun (hpending _ hnm (le_refl _)) hfound, hfound⟩

/-! ### A run that settles -/

/-- A run from `s`, with no reset given, after some step of which nothing pending is accepted any more. -/
structure SettlingRun (s : State) (σ : Nat → List Input) (ρ : Nat → State) : Prop where
  start : ρ 0 = s
  run : isRun σ ρ
  resets : ∀ n, noReset (σ n) = true
  settles : ∃ N, ∀ n, N ≤ n → ∀ a w, (ρ n).ports.get a = some w → (ρ n).accepts w = false

/-- The sequence `f` with `x` put before it. -/
def precede {α : Type} (x : α) (f : Nat → α) : Nat → α
  | 0 => x
  | n + 1 => f n

section
variable {s t : State} {σ : Nat → List Input} {ρ : Nat → State}

/-- A request that was never served would stay pending until the run has settled, and then be accepted no more. -/
theorem SettlingRun.fair (h : SettlingRun s σ ρ) : fair σ ρ := by
  intro n a w hport hoften
  by_contra hnever
  obtain ⟨N, hN⟩ := h.settles
  obtain ⟨k, hk, hacc⟩ := hoften (max n N) (le_max_left n N)
  have hpending : (ρ k).ports.get a = some w :=
    pending_until_served h.run hport ((le_max_left n N).trans hk) fun j hnj _ hj => hnever ⟨j, hnj, hj⟩
  rw [hN k ((le_max_right n N).trans hk) a w hpending] at hacc
  cases hacc

theorem SettlingRun.constant (hwf : s.cfg.failure = none) (hin : s.inputs = [])
    (hquiet : ∀ a w, s.ports.get a = some w → s.accepts w = false) : SettlingRun s (fun _ => []) (fun _ => s) where
  start := rfl
  run _ := by
    rw [State.given_nil]
    exact step_of_fetch_none hwf (State.fetch_nil hin)
  resets _ := rfl
  settles := ⟨0, fun _ _ => hquiet⟩

theorem SettlingRun.precede {more : List Input} (h : SettlingRun t σ ρ) (hmore : noReset more = true)
    (hstep : step (s.given more) = .next t) : SettlingRun s (precede more σ) (precede s ρ) where
  start := rfl
  run
    | 0 => by
      change step (s.given more) = .next (ρ 0)
      rw [h.start]
      exact hstep
    | n + 1 => h.run n
  resets
    | 0 => hmore
    | n + 1 => h.resets n
  settles := by
    obtain ⟨N, hN⟩ := h.settles
    refine ⟨N + 1, fun n hn => ?_⟩
    obtain ⟨k, rfl⟩ := Nat.exists_eq_add_of_le' (Nat.one_le_of_lt hn)
    exact hN k (Nat.le_of_succ_le_succ hn)

/-- How many requests are pending. -/
def Ports.pending (p : Ports) : Nat := [Agent.rx, .ctl, .handler, .diag].countP fun a => (p.get a).isSome

theorem Ports.pending_set_lt {p : Ports} {a : Agent} (h : (p.get a).isSome = true) :
    (p.set a none).pending < p.pending := by
  unfold Ports.pending
  cases a <;> simp_all [Ports.get, Ports.set, List.countP_cons]

/-- With no input left, performing what is accepted, as long as there is any, uses up the pending requests. -/
theorem exists_settlingRun_of_no_inputs (hwf : s.cfg.failure = none) (hin : s.inputs = []) :
    ∃ σ ρ, SettlingRun s σ ρ := by
  induction hcount : s.ports.pending using Nat.strong_induction_on generalizing s with
  | _ count ih =>
    by_cases hquiet : ∀ a w, s.ports.get a = some w → s.accepts w = false
    · exact ⟨_, _, .constant hwf hin hquiet⟩
    · obtain ⟨a, w, hport, hacc⟩ : ∃ a w, s.ports.get a = some w ∧ s.accepts w = true := by simpa using hquiet
      obtain ⟨t, hstep⟩ := step_total (s := s.given [.perform a]) hwf
      have hgiven : (s.given [.perform a]).inputs = [.perform a] := by rw [State.given_inputs, hin]; rfl
      have hports : t.ports = (s.given [.perform a]).ports.set a none :=
        step_ports_of_performsNext hstep ⟨State.nextInput_eq hgiven, hport, hacc⟩
      have hfewer : t.ports.pending < count := by
        rw [hports, State.given_ports, ← hcount]
        exact Ports.pending_set_lt (by rw [hport]; rfl)
      have hwf' : t.cfg.failure = none := by rw [step_cfg hstep]; exact hwf
      have hin' : t.inputs = [] := by rw [step_inputs hstep, hgiven]; rfl
      obtain ⟨σ, ρ, h⟩ := ih _ hfewer hwf' hin' rfl
      exact ⟨_, _, h.precede (more := [.perform a]) rfl hstep⟩

/-- The inputs that are there run out, one at a step. -/
theorem exists_settlingRun (hwf : s.cfg.failure = none) : ∃ σ ρ, SettlingRun s σ ρ := by
  induction hin : s.inputs generalizing s with
  | nil => exact exists_settlingRun_of_no_inputs hwf hin
  | cons i r ih =>
    obtain ⟨t, hstep⟩ := step_total hwf
    have hinputs : t.inputs = r := by rw [step_inputs hstep, hin]; rfl
    obtain ⟨σ, ρ, h⟩ := ih ((step_cfg hstep).symm ▸ hwf) hinputs
    exact ⟨_, _, h.precede (more := []) rfl (by rwa [State.given_nil])⟩

end

/-- Settles O51: a run that settles is fair. -/
theorem everyStateHasAFairRun : Obligations.EveryStateHasAFairRun := by
  intro s hwf
  obtain ⟨σ, ρ, h⟩ := exists_settlingRun hwf
  exact ⟨σ, ρ, h.start, h.run, h.fair, h.resets⟩

end Sys2Proof.Machine
end
